-- ==== Sys2Proof/Word.lean ====
section
/-! DEFINITION. The widths of the block's ports (00_scope.md R7, R8): bytes and the 16-bit command word. -/

namespace Sys2Proof

/-- BYTE_W = 8 (R7): every data byte, IN and OUT, and every RTC register. Unsigned (R8). -/
abbrev Byte := BitVec 8

/-- CMD_W = 16 (R7): the command word. -/
abbrev Word := BitVec 16

/-- `OUT[k] <- v` of a natural v (R11: `0 <= v <= 255`) as a byte. -/
abbrev toByte (n : Nat) : Byte := BitVec.ofNat 8 n

end Sys2Proof
end

