-- ==== Sys2Proof/Syntax.lean ====
section
/-! DEFINITION. The command set (30_encoding.md R71): one constructor of `Instr` per row of
spec/opcode_table.json, and the 30 logical fields a field-taking operation may name (40_register_map.md R120 to R150). -/

namespace Sys2Proof

/-- The kind of a field descriptor (R120): BCD = 0, BIN = 1, ENUM = 2, FLAG = 3. -/
inductive Kind where
  | bcd
  | bin
  | enum
  | flag
deriving DecidableEq, Repr

/-- The 30 assigned fields, FID 0..29 in this order (R121 to R150). FID 30 and 31 have no descriptor (R151),
so they are no field. -/
inductive Field where
  | seconds
  | minutes
  | hours
  | days
  | weekdays
  | months
  | years
  | minuteAlarm
  | hourAlarm
  | dayAlarm
  | weekdayAlarm
  | timerValue
  | td
  | fd
  | vl
  | c
  | aeM
  | aeH
  | aeD
  | aeW
  | test1
  | stop
  | testc
  | tiTp
  | af
  | tf
  | aie
  | tie
  | te
  | fe
deriving DecidableEq, Repr

/-- The fifteen operations (R71). The six field-taking ones (R72) carry their field; no operation carries an
immediate (R74): every data operand is a byte on the IN ports. -/
inductive Instr where
  /-- BCD_DEC, OPC 0x0 (R162). -/
  | bcdDec
  /-- BCD_ENC, OPC 0x1 (R163). -/
  | bcdEnc
  /-- FLD_GET, OPC 0x2, any assigned field (R184). -/
  | fldGet (f : Field)
  /-- FLD_PUT, OPC 0x3, any assigned field (R185). -/
  | fldPut (f : Field)
  /-- FLG_ON, OPC 0x4, FLAG fields only (R186). -/
  | flgOn (f : Field)
  /-- FLG_OFF, OPC 0x5, FLAG fields only (R187). -/
  | flgOff (f : Field)
  /-- FLG_TEST, OPC 0x6, FLAG fields only (R188). -/
  | flgTest (f : Field)
  /-- DT_UNPACK, OPC 0x7 (R220). -/
  | dtUnpack
  /-- DT_PACK, OPC 0x8 (R221). -/
  | dtPack
  /-- TM_PACK, OPC 0x9 (R222). -/
  | tmPack
  /-- ALM_UNPACK, OPC 0xA (R240). -/
  | almUnpack
  /-- ALM_PACK, OPC 0xB (R241). -/
  | almPack
  /-- MAP_FIELD, OPC 0xC, any assigned field (R153). -/
  | mapField (f : Field)
  /-- MAP_REG, OPC 0xD (R154). -/
  | mapReg
  /-- MAP_DEV, OPC 0xE (R155). -/
  | mapDev
deriving DecidableEq, Repr

end Sys2Proof
end

