-- ==== Sys2Proof/Machine/Rom.lean ====
section
/-! DEFINITION. The register map ROM (40_register_map.md R100): 16 register descriptors, 30 field descriptors and
the ROM constants. Read-only, the same in every request (10_state.md R21), so a constant of the model.
Most of its values the spec itself marks as general knowledge of the PCF8563: UNVERIFIED, log entry 4. -/

namespace Sys2Proof.Machine

/-- A field descriptor `ROM_F[f]` (R120). `pol` is 0 for active-high, 1 for active-low. -/
structure FieldDesc where
  reg   : Byte
  mask  : Byte
  shift : Byte
  kind  : Kind
  lo    : Byte
  hi    : Byte
  pol   : Byte
deriving DecidableEq, Repr

/-- A register descriptor `ROM_R[a]` (R101). -/
structure RegDesc where
  used    : Byte
  dc      : Byte
  mbz     : Byte
  nfields : Byte
deriving DecidableEq, Repr

/-- ROM_F: the field descriptors of R121 to R150, one row each. -/
def romF : Field → FieldDesc
  | .seconds      => ⟨0x02, 0x7F, 0, .bcd, 0, 59, 0⟩
  | .minutes      => ⟨0x03, 0x7F, 0, .bcd, 0, 59, 0⟩
  | .hours        => ⟨0x04, 0x3F, 0, .bcd, 0, 23, 0⟩
  | .days         => ⟨0x05, 0x3F, 0, .bcd, 1, 31, 0⟩
  | .weekdays     => ⟨0x06, 0x07, 0, .bin, 0, 6, 0⟩
  | .months       => ⟨0x07, 0x1F, 0, .bcd, 1, 12, 0⟩
  | .years        => ⟨0x08, 0xFF, 0, .bcd, 0, 99, 0⟩
  | .minuteAlarm  => ⟨0x09, 0x7F, 0, .bcd, 0, 59, 0⟩
  | .hourAlarm    => ⟨0x0A, 0x3F, 0, .bcd, 0, 23, 0⟩
  | .dayAlarm     => ⟨0x0B, 0x3F, 0, .bcd, 1, 31, 0⟩
  | .weekdayAlarm => ⟨0x0C, 0x07, 0, .bin, 0, 6, 0⟩
  | .timerValue   => ⟨0x0F, 0xFF, 0, .bin, 0, 255, 0⟩
  | .td           => ⟨0x0E, 0x03, 0, .enum, 0, 3, 0⟩
  | .fd           => ⟨0x0D, 0x03, 0, .enum, 0, 3, 0⟩
  | .vl           => ⟨0x02, 0x80, 7, .flag, 0, 1, 0⟩
  | .c            => ⟨0x07, 0x80, 7, .flag, 0, 1, 0⟩
  | .aeM          => ⟨0x09, 0x80, 7, .flag, 0, 1, 1⟩
  | .aeH          => ⟨0x0A, 0x80, 7, .flag, 0, 1, 1⟩
  | .aeD          => ⟨0x0B, 0x80, 7, .flag, 0, 1, 1⟩
  | .aeW          => ⟨0x0C, 0x80, 7, .flag, 0, 1, 1⟩
  | .test1        => ⟨0x00, 0x80, 7, .flag, 0, 1, 0⟩
  | .stop         => ⟨0x00, 0x20, 5, .flag, 0, 1, 0⟩
  | .testc        => ⟨0x00, 0x08, 3, .flag, 0, 1, 0⟩
  | .tiTp         => ⟨0x01, 0x10, 4, .flag, 0, 1, 0⟩
  | .af           => ⟨0x01, 0x08, 3, .flag, 0, 1, 0⟩
  | .tf           => ⟨0x01, 0x04, 2, .flag, 0, 1, 0⟩
  | .aie          => ⟨0x01, 0x02, 1, .flag, 0, 1, 0⟩
  | .tie          => ⟨0x01, 0x01, 0, .flag, 0, 1, 0⟩
  | .te           => ⟨0x0E, 0x80, 7, .flag, 0, 1, 0⟩
  | .fe           => ⟨0x0D, 0x80, 7, .flag, 0, 1, 0⟩

/-- `ROM_F[FID].kind == FLAG` (30_encoding.md R72). -/
def isFlag (f : Field) : Bool := decide ((romF f).kind = .flag)

/-- ROM_R: the register descriptors of R102 to R117, addresses 0x00 to 0x0F in order. -/
def romRTable : List RegDesc :=
  [⟨0xA8, 0x00, 0x57, 3⟩, ⟨0x1F, 0x00, 0xE0, 5⟩, ⟨0xFF, 0x00, 0x00, 2⟩, ⟨0x7F, 0x80, 0x00, 1⟩,
   ⟨0x3F, 0xC0, 0x00, 1⟩, ⟨0x3F, 0xC0, 0x00, 1⟩, ⟨0x07, 0xF8, 0x00, 1⟩, ⟨0x9F, 0x60, 0x00, 2⟩,
   ⟨0xFF, 0x00, 0x00, 1⟩, ⟨0xFF, 0x00, 0x00, 2⟩, ⟨0xBF, 0x40, 0x00, 2⟩, ⟨0xBF, 0x40, 0x00, 2⟩,
   ⟨0x87, 0x78, 0x00, 2⟩, ⟨0x83, 0x7C, 0x00, 2⟩, ⟨0x83, 0x7C, 0x00, 2⟩, ⟨0xFF, 0x00, 0x00, 1⟩]

/-- ROM_R[a]; `none` for an address above 0x0F, which has no descriptor (R100). -/
def romR (a : Byte) : Option RegDesc := romRTable[a.toNat]?

/-- DEVICE_ADDRESS, the RTC's 7-bit bus address (R152). -/
def deviceAddress : Byte := 0x51

/-- N_REG (R152). -/
def nReg : Byte := 16

/-- N_FIELD (R152). -/
def nField : Byte := 30

/-- CENTURY_DEFAULT, the century bit DT_PACK writes (00_scope.md R7, 43_datetime.md R223). -/
def centuryDefault : Byte := 0

/-- The kind code MAP_FIELD reports (R120): BCD = 0, BIN = 1, ENUM = 2, FLAG = 3. -/
def kindCode : Kind → Byte
  | .bcd => 0
  | .bin => 1
  | .enum => 2
  | .flag => 3

end Sys2Proof.Machine
end

