-- ==== Sys2Proof/WellFormed.lean ====
section
/-! DEFINITION. Which instructions have a command word of their own (30_encoding.md R72): FLG_ON, FLG_OFF and
FLG_TEST name a FLAG field; every other operation is well formed as it stands, since `Field` holds exactly the
30 assigned fields. -/

namespace Sys2Proof

/-- R72: the FLAG-only operations also need a FLAG field. -/
def Instr.wellFormed : Instr → Bool
  | .bcdDec => true
  | .bcdEnc => true
  | .fldGet _ => true
  | .fldPut _ => true
  | .flgOn f => Machine.isFlag f
  | .flgOff f => Machine.isFlag f
  | .flgTest f => Machine.isFlag f
  | .dtUnpack => true
  | .dtPack => true
  | .tmPack => true
  | .almUnpack => true
  | .almPack => true
  | .mapField _ => true
  | .mapReg => true
  | .mapDev => true

end Sys2Proof
end

