-- ==== Sys2Proof/Decode.lean ====
section
/-! DEFINITION. The request decoder (30_encoding.md R70 to R76), total on every command word and rejecting by name,
and after it the encoder (R70, R78). -/

namespace Sys2Proof

/-- Why a command word names no operation: the causes (a) to (e) of 60_exceptions.md R302. Each one makes the
block answer ILLEGAL_REQUEST. -/
inductive Reject where
  /-- (a) RSV != 0. -/
  | reservedBits
  /-- (b) OPC == 0xF. -/
  | reservedOpcode
  /-- (c) a field-taking OPC with FID 30 or 31. -/
  | reservedField
  /-- (d) a FLAG-only OPC with a non-FLAG FID. -/
  | notAFlag
  /-- (e) an OPC that takes no field, with FID != 0. -/
  | fieldNotTaken
deriving DecidableEq, Repr

/-- OPC, bits 15:12 (R70). -/
def cmdOpc (cmd : Word) : BitVec 4 := cmd.extractLsb' 12 4

/-- RSV, bits 11:5 (R70). -/
def cmdRsv (cmd : Word) : BitVec 7 := cmd.extractLsb' 5 7

/-- FID, bits 4:0 (R70). -/
def cmdFid (cmd : Word) : BitVec 5 := cmd.extractLsb' 0 5

/-- The fields in the order of their FIDs, 0 to 29 (40_register_map.md R121 to R150). -/
def fieldsByFid : List Field :=
  [.seconds, .minutes, .hours, .days, .weekdays, .months, .years,
   .minuteAlarm, .hourAlarm, .dayAlarm, .weekdayAlarm, .timerValue, .td, .fd,
   .vl, .c, .aeM, .aeH, .aeD, .aeW, .test1, .stop, .testc,
   .tiTp, .af, .tf, .aie, .tie, .te, .fe]

/-- The field an FID names; `none` for the reserved FIDs 30 and 31 (R151). -/
def fieldOfFid (n : BitVec 5) : Option Field := fieldsByFid[n.toNat]?

/-- An operation that takes no field: FID must be 0 (R72). -/
def takeNoField (fid : BitVec 5) (i : Instr) : Except Reject Instr :=
  if fid = 0 then .ok i else .error .fieldNotTaken

/-- An operation that takes any assigned field: FID in 0..29 (R72). -/
def takeField (fid : BitVec 5) (mk : Field → Instr) : Except Reject Instr :=
  match fieldOfFid fid with
  | some f => .ok (mk f)
  | none => .error .reservedField

/-- A FLAG-only operation: FID in 0..29 first, then `ROM_F[FID].kind == FLAG` (R75's order). -/
def takeFlag (fid : BitVec 5) (mk : Field → Instr) : Except Reject Instr :=
  match fieldOfFid fid with
  | some f => if Machine.isFlag f then .ok (mk f) else .error .notAFlag
  | none => .error .reservedField

/-- `decode(CMD)` of R75, its checks in R75's order, with the opcode map of R71. -/
def decode (cmd : Word) : Except Reject Instr :=
  if cmdRsv cmd ≠ 0 then .error .reservedBits
  else
    match (cmdOpc cmd).toNat with
    | 0x0 => takeNoField (cmdFid cmd) .bcdDec
    | 0x1 => takeNoField (cmdFid cmd) .bcdEnc
    | 0x2 => takeField (cmdFid cmd) .fldGet
    | 0x3 => takeField (cmdFid cmd) .fldPut
    | 0x4 => takeFlag (cmdFid cmd) .flgOn
    | 0x5 => takeFlag (cmdFid cmd) .flgOff
    | 0x6 => takeFlag (cmdFid cmd) .flgTest
    | 0x7 => takeNoField (cmdFid cmd) .dtUnpack
    | 0x8 => takeNoField (cmdFid cmd) .dtPack
    | 0x9 => takeNoField (cmdFid cmd) .tmPack
    | 0xA => takeNoField (cmdFid cmd) .almUnpack
    | 0xB => takeNoField (cmdFid cmd) .almPack
    | 0xC => takeField (cmdFid cmd) .mapField
    | 0xD => takeNoField (cmdFid cmd) .mapReg
    | 0xE => takeNoField (cmdFid cmd) .mapDev
    | _ => .error .reservedOpcode

/-- The command word of `nbits` table bits `w`, with every bit above `nbits` zero. The table's numbering (bit 0 least
significant of the first and only word) is CMD's own (R9, R70). -/
def cmdOfTableWord (nbits w : Nat) : Word := BitVec.ofNat 16 (w % 2 ^ nbits)

/-- The instruction the decoder reads from a word numbered as spec/opcode_table.json numbers it. -/
def decodeTableWord (nbits w : Nat) : Option Instr :=
  match decode (cmdOfTableWord nbits w) with
  | .ok i => some i
  | .error _ => none

/-- The FID of a field (R121 to R150). -/
def Field.fid : Field → BitVec 5
  | .seconds => 0
  | .minutes => 1
  | .hours => 2
  | .days => 3
  | .weekdays => 4
  | .months => 5
  | .years => 6
  | .minuteAlarm => 7
  | .hourAlarm => 8
  | .dayAlarm => 9
  | .weekdayAlarm => 10
  | .timerValue => 11
  | .td => 12
  | .fd => 13
  | .vl => 14
  | .c => 15
  | .aeM => 16
  | .aeH => 17
  | .aeD => 18
  | .aeW => 19
  | .test1 => 20
  | .stop => 21
  | .testc => 22
  | .tiTp => 23
  | .af => 24
  | .tf => 25
  | .aie => 26
  | .tie => 27
  | .te => 28
  | .fe => 29

/-- OPC of an operation (R71). -/
def Instr.opc : Instr → BitVec 4
  | .bcdDec => 0x0
  | .bcdEnc => 0x1
  | .fldGet _ => 0x2
  | .fldPut _ => 0x3
  | .flgOn _ => 0x4
  | .flgOff _ => 0x5
  | .flgTest _ => 0x6
  | .dtUnpack => 0x7
  | .dtPack => 0x8
  | .tmPack => 0x9
  | .almUnpack => 0xA
  | .almPack => 0xB
  | .mapField _ => 0xC
  | .mapReg => 0xD
  | .mapDev => 0xE

/-- The field a field-taking operation names (R72); `none` for the others. -/
def Instr.field? : Instr → Option Field
  | .bcdDec => none
  | .bcdEnc => none
  | .fldGet f => some f
  | .fldPut f => some f
  | .flgOn f => some f
  | .flgOff f => some f
  | .flgTest f => some f
  | .dtUnpack => none
  | .dtPack => none
  | .tmPack => none
  | .almUnpack => none
  | .almPack => none
  | .mapField f => some f
  | .mapReg => none
  | .mapDev => none

/-- The FID bits of an operation's word: its field's FID, or 0 where it takes none (R70, R72). -/
def Instr.fidBits (i : Instr) : BitVec 5 :=
  match i.field? with
  | some f => f.fid
  | none => 0

/-- `CMD = (OPC << 12) | (RSV << 5) | FID` with RSV = 0 (R70). -/
def encode (i : Instr) : Word := i.opc ++ (0 : BitVec 7) ++ i.fidBits

end Sys2Proof
end

