-- ==== Sys2Proof/Config.lean ====
section
/-! DEFINITION. The parameters the spec leaves OPEN (00_scope.md R7): OUT_RESET and CENTURY_EPOCH_OF_C0.
Each is an opaque constant: nothing can be proved of its value, so every claim holds whatever it is.
The parameters the spec fixes stand in Machine/Rom.lean. -/

namespace Sys2Proof

/-- OUT_RESET, its STATUS port (70_reset_and_hazards.md R331: "A model treats it as any value"). Log entry 2. -/
opaque Config.outResetStatus : BitVec 2

/-- OUT_RESET, its eight OUT bytes by lane (R331: any value). Log entry 2. -/
opaque Config.outResetByte : Nat → Byte

/-- OUT_RESET, its RADDR port (R331: any value). Log entry 2. -/
opaque Config.outResetRaddr : Byte

/-- OUT_RESET, its RLEN port (R331: any value). Log entry 2. -/
opaque Config.outResetRlen : BitVec 4

/-- Which of the two epochs C = 0 denotes: true for 2000, false for 1900. OPEN (R7, 92 D11). Log entry 3. -/
opaque Config.c0Denotes2000 : Bool

/-- CENTURY_EPOCH_OF_C0 in {1900, 2000} (R7). No rule of the block reads it; the host helper `fullYear` does. -/
def Config.centuryEpochOfC0 : Nat := if Config.c0Denotes2000 then 2000 else 1900

/-- The epoch C = 1 denotes. The spec states none (91 N11: assume neither), so it is a free value.
DESIGN CHOICE, log entry 3. -/
opaque Config.centuryEpochOfC1 : Nat

end Sys2Proof
end

