-- ==== Sys2Proof/Machine/State.lean ====
section
/-! DEFINITION. The block's state as plain data: its request ports and its response ports (10_state.md R22, R23).
The block keeps nothing from one request to the next (R20); the response is held here as the register stage of
70_reset_and_hazards.md R331 holds it, so that a next state can show it, and no step reads it. -/

namespace Sys2Proof.Machine

/-- STATUS, a 2-bit port with exactly four values (60_exceptions.md R300). -/
inductive Status where
  | ok
  | invalidArgument
  | decodeAnomaly
  | illegalRequest
deriving DecidableEq, Repr

/-- The error classes a request can raise (R11, R300): every STATUS but OK. -/
inductive Cause where
  /-- a caller-supplied value or address out of range (R303) -/
  | invalidArgument
  /-- a bad digit or an out-of-range value in a register byte (R304) -/
  | decodeAnomaly
  /-- a command word that names no operation (R302) -/
  | illegalRequest
deriving DecidableEq, Repr

/-- Eight byte lanes: IN0..IN7 (R22) or OUT0..OUT7 (R23). -/
structure Lanes where
  l0 : Byte
  l1 : Byte
  l2 : Byte
  l3 : Byte
  l4 : Byte
  l5 : Byte
  l6 : Byte
  l7 : Byte
deriving DecidableEq, Repr

/-- The request ports (R22). -/
structure Request where
  cmd : Word
  ins : Lanes
deriving DecidableEq, Repr

/-- The response ports (R23): RADDR is 8 bits wide, RLEN 4. -/
structure Response where
  status : Status
  out    : Lanes
  raddr  : Byte
  rlen   : BitVec 4
deriving DecidableEq, Repr

/-- The whole state: what the host drives on the request ports, and what the block answers on the response ports. -/
structure State where
  req  : Request
  resp : Response
deriving DecidableEq, Repr

/-- The ways a step stops with a fault: none. Every request value has exactly one response (R24), and an error is a
response, not a trap (60_exceptions.md R307, R308). Nobody raises one, so nothing is hidden by it: safe. -/
inductive Fault where
deriving DecidableEq, Repr

/-- The ways a step refuses. -/
inductive Refusal where
  /-- Raised by a refused arm of Dispatch.exec alone, for an instruction that has no meaning in the model yet; safe
  (the model stops where the block answers). No arm raises it now. -/
  | notModelled (mnemonic : String)
deriving DecidableEq, Repr

/-- The status a 2-bit STATUS code stands for (R300). -/
def statusOfCode (c : BitVec 2) : Status :=
  match c.toNat with
  | 0 => .ok
  | 1 => .invalidArgument
  | 2 => .decodeAnomaly
  | _ => .illegalRequest

/-- OUT_RESET: the response held before the first request completes, any value (R331). Log entry 2. -/
def outReset : Response where
  status := statusOfCode Config.outResetStatus
  out := ⟨Config.outResetByte 0, Config.outResetByte 1, Config.outResetByte 2, Config.outResetByte 3,
    Config.outResetByte 4, Config.outResetByte 5, Config.outResetByte 6, Config.outResetByte 7⟩
  raddr := Config.outResetRaddr
  rlen := Config.outResetRlen

/-- The block before the first request (70_reset_and_hazards.md R330, R331): the response ports hold OUT_RESET.
The request ports are inputs, and the spec gives them no value until the host drives them: all zeros here, as the
assembler fills what a request does not list (30_encoding.md R78). DESIGN CHOICE, unsafe, log entry 1. -/
def State.reset : State where
  req := ⟨0, ⟨0, 0, 0, 0, 0, 0, 0, 0⟩⟩
  resp := outReset

end Sys2Proof.Machine
end

