-- ==== Sys2Proof/Machine/Ops.lean ====
section
/-! DEFINITION. The operations every meaning is built from (00_scope.md R11): reading IN[k], `ok(raddr, rlen)`, and
`raise E`, which is all the "exception taking" the block has (60_exceptions.md R301, R307). There is no return from
an error and nothing to restore (R308). -/

namespace Sys2Proof.Machine

/-- `IN[0]` (R11). -/
abbrev State.in0 (s : State) : Byte := s.req.ins.l0

/-- `IN[1]` (R11). -/
abbrev State.in1 (s : State) : Byte := s.req.ins.l1

/-- `IN[2]` (R11). -/
abbrev State.in2 (s : State) : Byte := s.req.ins.l2

/-- `IN[3]` (R11). -/
abbrev State.in3 (s : State) : Byte := s.req.ins.l3

/-- `IN[4]` (R11). -/
abbrev State.in4 (s : State) : Byte := s.req.ins.l4

/-- `IN[5]` (R11). -/
abbrev State.in5 (s : State) : Byte := s.req.ins.l5

/-- `IN[6]` (R11). -/
abbrev State.in6 (s : State) : Byte := s.req.ins.l6

/-- `IN[7]` (R11). -/
abbrev State.in7 (s : State) : Byte := s.req.ins.l7

/-- `IN[k]` by its index (R11). -/
def State.inByte (s : State) (k : Fin 8) : Byte :=
  match k with
  | 0 => s.in0
  | 1 => s.in1
  | 2 => s.in2
  | 3 => s.in3
  | 4 => s.in4
  | 5 => s.in5
  | 6 => s.in6
  | 7 => s.in7

/-- The lanes whose first bytes are listed; "Every OUT byte the rule did not set is 0" (R11), and an IN byte the
assembler's list leaves out is 0 as well (30_encoding.md R78). -/
def lanesOf (bytes : List Byte) : Lanes :=
  ⟨bytes.getD 0 0, bytes.getD 1 0, bytes.getD 2 0, bytes.getD 3 0,
   bytes.getD 4 0, bytes.getD 5 0, bytes.getD 6 0, bytes.getD 7 0⟩

/-- The lanes as a list, lane 0 first. -/
def Lanes.toList (l : Lanes) : List Byte := [l.l0, l.l1, l.l2, l.l3, l.l4, l.l5, l.l6, l.l7]

/-- The STATUS an error class reports (R300). -/
def causeStatus : Cause → Status
  | .invalidArgument => .invalidArgument
  | .decodeAnomaly => .decodeAnomaly
  | .illegalRequest => .illegalRequest

/-- The response of `ok(raddr, rlen)` after `OUT[k] <- bytes[k]` (R11). -/
def okResponse (bytes : List Byte) (raddr : Byte) (rlen : BitVec 4) : Response :=
  ⟨.ok, lanesOf bytes, raddr, rlen⟩

/-- The response of `raise E`: STATUS = E, OUT0..OUT7 all 0, RADDR = 0 and RLEN = 0 (R301). -/
def errorResponse (e : Cause) : Response :=
  ⟨causeStatus e, ⟨0, 0, 0, 0, 0, 0, 0, 0⟩, 0, 0⟩

/-- The response ports driven with `r`; the request ports are the host's and stay as it drives them. -/
def State.respond (s : State) (r : Response) : State := { s with resp := r }

/-- End the request with `ok(raddr, rlen)` (R11). -/
def finishOk (s : State) (bytes : List Byte) (raddr : Byte) (rlen : BitVec 4) : Host.Outcome State Fault Refusal :=
  .next (s.respond (okResponse bytes raddr rlen))

/-- End the request with `raise E` (R11, R301): no OUT byte computed before it is output, and nothing else changes. -/
def raiseCause (s : State) (e : Cause) : Host.Outcome State Fault Refusal :=
  .next (s.respond (errorResponse e))

/-- The host drives a request on the ports (R22). -/
def State.present (s : State) (r : Request) : State := { s with req := r }

/-- The command word the block reads (20_memory.md R59: it arrives on the CMD port; nothing is fetched). -/
def State.cmdWord (s : State) : Word := s.req.cmd

/-- The CMD port driven with a word, the IN ports left as they are. -/
def State.driveCmd (s : State) (w : Word) : State := { s with req := { s.req with cmd := w } }

end Sys2Proof.Machine
end

