-- ==== Sys2Proof/Machine/Operands.lean ====
section
/-! DEFINITION. The helper functions the operations share: the BCD helpers (41_bcd_codec.md R160) and the field
helpers (42_field_ops.md R180 to R182), one lane and many. -/

namespace Sys2Proof.Machine

/-- `bcd_ok(v)`: both digits at most 9 (R160, R161). -/
def bcdOk (v : Byte) : Bool := decide ((v >>> 4).toNat ≤ 9) && decide ((v &&& 0x0F).toNat ≤ 9)

/-- `bcd2dec(v)`, 0..99 on bytes with `bcdOk` (R160). Tens in bits 7:4, ones in bits 3:0 (20_memory.md R52). -/
def bcd2dec (v : Byte) : Nat := 10 * (v >>> 4).toNat + (v &&& 0x0F).toNat

/-- `dec2bcd(d)` for d in 0..99 (R160). -/
def dec2bcd (d : Nat) : Byte := toByte (((d / 10) <<< 4) ||| (d % 10))

/-- The raw bits of a field: `(x & f.mask) >> f.shift` (R180). -/
def fieldRaw (d : FieldDesc) (x : Byte) : Byte := (x &&& d.mask) >>> d.shift

/-- `v < f.lo or v > f.hi` fails (R180, R181). -/
def inRange (d : FieldDesc) (v : Byte) : Bool := decide (d.lo.toNat ≤ v.toNat) && decide (v.toNat ≤ d.hi.toNat)

/-- `fdecode(f, x)` (R180); `none` is `raise DecodeAnomaly`. A FLAG gives its raw bit, before polarity. -/
def fdecode (d : FieldDesc) (x : Byte) : Option Byte :=
  match d.kind with
  | .bcd =>
    if bcdOk (fieldRaw d x) ∧ inRange d (toByte (bcd2dec (fieldRaw d x))) then
      some (toByte (bcd2dec (fieldRaw d x)))
    else none
  | .bin => if inRange d (fieldRaw d x) then some (fieldRaw d x) else none
  | .enum => some (fieldRaw d x)
  | .flag => some (fieldRaw d x)

/-- The unshifted code of a value: BCD for a BCD field, the value itself for the other kinds (R181). -/
def fieldCode (d : FieldDesc) (v : Byte) : Byte :=
  match d.kind with
  | .bcd => dec2bcd v.toNat
  | .bin => v
  | .enum => v
  | .flag => v

/-- `bits = b << f.shift` (R181). -/
def fieldBits (d : FieldDesc) (v : Byte) : Byte := fieldCode d v <<< d.shift

/-- `fencode(f, v)` (R181); `none` is `raise InvalidArgument`. The last check never fires on the ROM's fields. -/
def fencode (d : FieldDesc) (v : Byte) : Option Byte :=
  if inRange d v then
    if fieldBits d v &&& ~~~d.mask ≠ 0 then none else some (fieldBits d v)
  else none

/-- `finsert(f, old, bits) := (old & ~f.mask) | bits` (R182). -/
def finsert (d : FieldDesc) (old bits : Byte) : Byte := (old &&& ~~~d.mask) ||| bits

/-- `fdecode` lane by lane; `none` when any lane raises (43_datetime.md R220, R224; 44_alarm.md R240). -/
def decodeLanes : List (Field × Byte) → Option (List Byte)
  | [] => some []
  | (f, x) :: rest =>
    match fdecode (romF f) x, decodeLanes rest with
    | some v, some vs => some (v :: vs)
    | _, _ => none

/-- `fencode` lane by lane; `none` when any lane raises (43_datetime.md R221, R222, R224; 44_alarm.md R241). -/
def encodeLanes : List (Field × Byte) → Option (List Byte)
  | [] => some []
  | (f, v) :: rest =>
    match fencode (romF f) v, encodeLanes rest with
    | some b, some bs => some (b :: bs)
    | _, _ => none

/-- Fresh packing of two fields into each byte: the OR of their bits, lane by lane (R182). -/
def orLanes (a b : List Byte) : List Byte := List.zipWith (· ||| ·) a b

end Sys2Proof.Machine
end

