-- ==== Sys2Proof/Machine/Flags.lean ====
section
/-! DEFINITION. FLAG fields: the active state and its bit value (42_field_ops.md R183). The block itself holds no flag
or condition code (10_state.md R27), so no operation has a flag side effect; STATUS codes stand here too (R300). -/

namespace Sys2Proof.Machine

/-- `onbit(f) := 1 ^ f.pol` (R183). -/
def onbit (d : FieldDesc) : Byte := 1 ^^^ d.pol

/-- `offbit(f) := f.pol` (R183). -/
def offbit (d : FieldDesc) : Byte := d.pol

/-- `active(f, x)`: 1 exactly when byte x holds the flag in its active state (R183). -/
def active (d : FieldDesc) (x : Byte) : Byte := fieldRaw d x ^^^ d.pol

/-- The 2-bit STATUS code (60_exceptions.md R300). -/
def statusCode : Status → BitVec 2
  | .ok => 0
  | .invalidArgument => 1
  | .decodeAnomaly => 2
  | .illegalRequest => 3

end Sys2Proof.Machine
end

