-- ==== Sys2Proof/Machine/Alarm.lean ====
section
/-! DEFINITION. The alarm operations (44_alarm.md). Lane k is register 0x09 + k, value field FID 7 + k and enable field
FID 16 + k. -/

namespace Sys2Proof.Machine

/-- The four alarm value lanes, IN0..IN3 (44_alarm.md, lane table). -/
abbrev alarmLanes (s : State) : List (Field × Byte) :=
  [(.minuteAlarm, s.in0), (.hourAlarm, s.in1), (.dayAlarm, s.in2), (.weekdayAlarm, s.in3)]

/-- The four alarm enable lanes, IN4..IN7 (44_alarm.md, lane table). -/
abbrev alarmEnables (s : State) : List (Field × Byte) :=
  [(.aeM, s.in4), (.aeH, s.in5), (.aeD, s.in6), (.aeW, s.in7)]

/-- The AE bits of four enables, in register position: enabled gives onbit, disabled offbit (R241). -/
def alarmEnableBits (enables : List (Field × Byte)) : List Byte :=
  enables.map fun (g, e) => (if e = 1 then onbit (romF g) else offbit (romF g)) <<< 7

/-- ALM_UNPACK (R240): four values, then four enables (1 = enabled, AE bit 0). -/
def execAlmUnpack (s : State) : Host.Outcome State Fault Refusal :=
  match decodeLanes (alarmLanes s) with
  | some vs =>
    finishOk s (vs ++ [active (romF .aeM) s.in0, active (romF .aeH) s.in1,
      active (romF .aeD) s.in2, active (romF .aeW) s.in3]) 0x09 4
  | none => raiseCause s .decodeAnomaly

/-- ALM_PACK (R241): four fresh register bytes, every AE bit from the explicit enables IN4..IN7 (R242). -/
def execAlmPack (s : State) : Host.Outcome State Fault Refusal :=
  if (alarmEnables s).any (fun e => decide (e.2.toNat > 1)) then raiseCause s .invalidArgument
  else
    match encodeLanes (alarmLanes s) with
    | some bs => finishOk s (orLanes bs (alarmEnableBits (alarmEnables s))) 0x09 4
    | none => raiseCause s .invalidArgument

end Sys2Proof.Machine
end

