-- ==== Sys2Proof/Machine/Bcd.lean ====
section
/-! DEFINITION. The BCD codec operations (41_bcd_codec.md). -/

namespace Sys2Proof.Machine

/-- BCD_DEC (R162): decode byte IN0 under mask IN1. -/
def execBcdDec (s : State) : Host.Outcome State Fault Refusal :=
  if bcdOk (s.in0 &&& s.in1) then finishOk s [toByte (bcd2dec (s.in0 &&& s.in1))] 0 0
  else raiseCause s .decodeAnomaly

/-- BCD_ENC (R163): encode decimal IN0 under mask IN1. -/
def execBcdEnc (s : State) : Host.Outcome State Fault Refusal :=
  if s.in0.toNat > 99 then raiseCause s .invalidArgument
  else if dec2bcd s.in0.toNat &&& ~~~s.in1 ≠ 0 then raiseCause s .invalidArgument
  else finishOk s [dec2bcd s.in0.toNat] 0 0

end Sys2Proof.Machine
end

