-- ==== Sys2Proof/Machine/Datetime.lean ====
section
/-! DEFINITION. The datetime operations (43_datetime.md). Lane k is register 0x02 + k and field FID k. -/

namespace Sys2Proof.Machine

/-- The three time lanes, IN0..IN2 (43_datetime.md, lane table). -/
abbrev timeLanes (s : State) : List (Field × Byte) :=
  [(.seconds, s.in0), (.minutes, s.in1), (.hours, s.in2)]

/-- The seven datetime lanes, IN0..IN6 (43_datetime.md, lane table). -/
abbrev datetimeLanes (s : State) : List (Field × Byte) :=
  timeLanes s ++ [(.days, s.in3), (.weekdays, s.in4), (.months, s.in5), (.years, s.in6)]

/-- DT_UNPACK (R220): the seven decoded lanes, and the raw century bit of IN5 in OUT7. -/
def execDtUnpack (s : State) : Host.Outcome State Fault Refusal :=
  match decodeLanes (datetimeLanes s) with
  | some vs => finishOk s (vs ++ [(s.in5 &&& 0x80) >>> 7]) 0x02 7
  | none => raiseCause s .decodeAnomaly

/-- DT_PACK (R221): seven fresh register bytes; VL = 0, C = CENTURY_DEFAULT, don't-care bits 0 (R223). -/
def execDtPack (s : State) : Host.Outcome State Fault Refusal :=
  match encodeLanes (datetimeLanes s) with
  | some bs => finishOk s (orLanes bs [0, 0, 0, 0, 0, centuryDefault <<< 7, 0]) 0x02 7
  | none => raiseCause s .invalidArgument

/-- TM_PACK (R222): three fresh register bytes; RLEN 3. -/
def execTmPack (s : State) : Host.Outcome State Fault Refusal :=
  match encodeLanes (timeLanes s) with
  | some bs => finishOk s bs 0x02 3
  | none => raiseCause s .invalidArgument

end Sys2Proof.Machine
end

