-- ==== Sys2Proof/Machine/FieldOps.lean ====
section
/-! DEFINITION. The field operations (42_field_ops.md): the timer and control/status flag domains. The FLAG-only
operations check the field's kind again, so that a term with no command word of its own raises IllegalRequest, as
30_encoding.md R75 has it for such a word. -/

namespace Sys2Proof.Machine

/-- FLD_GET (R184): decode field f of register byte IN0. -/
def execFldGet (f : Field) (s : State) : Host.Outcome State Fault Refusal :=
  match fdecode (romF f) s.in0 with
  | some v => finishOk s [v] (romF f).reg 1
  | none => raiseCause s .decodeAnomaly

/-- FLD_PUT (R185): put value IN1 into field f of old byte IN0; IN0 is never checked. -/
def execFldPut (f : Field) (s : State) : Host.Outcome State Fault Refusal :=
  match fencode (romF f) s.in1 with
  | some bits => finishOk s [finsert (romF f) s.in0 bits] (romF f).reg 1
  | none => raiseCause s .invalidArgument

/-- FLG_ON (R186): put flag f of old byte IN0 in its active state. -/
def execFlgOn (f : Field) (s : State) : Host.Outcome State Fault Refusal :=
  if isFlag f then
    finishOk s [finsert (romF f) s.in0 (onbit (romF f) <<< (romF f).shift)] (romF f).reg 1
  else raiseCause s .illegalRequest

/-- FLG_OFF (R187): put flag f of old byte IN0 in its inactive state. -/
def execFlgOff (f : Field) (s : State) : Host.Outcome State Fault Refusal :=
  if isFlag f then
    finishOk s [finsert (romF f) s.in0 (offbit (romF f) <<< (romF f).shift)] (romF f).reg 1
  else raiseCause s .illegalRequest

/-- FLG_TEST (R188): whether flag f of register byte IN0 is in its active state. -/
def execFlgTest (f : Field) (s : State) : Host.Outcome State Fault Refusal :=
  if isFlag f then finishOk s [active (romF f) s.in0] (romF f).reg 1
  else raiseCause s .illegalRequest

end Sys2Proof.Machine
end

