-- ==== Sys2Proof/Machine/RegisterMap.lean ====
section
/-! DEFINITION. The ROM lookup operations (40_register_map.md R153 to R155). -/

namespace Sys2Proof.Machine

/-- MAP_FIELD (R153): the seven entries of the field descriptor. No IN byte is read. -/
def execMapField (f : Field) (s : State) : Host.Outcome State Fault Refusal :=
  finishOk s [(romF f).reg, (romF f).mask, (romF f).shift, kindCode (romF f).kind, (romF f).lo, (romF f).hi,
    (romF f).pol] 0 0

/-- MAP_REG (R154): the four entries of the register descriptor at address IN0, if there is one. -/
def execMapReg (s : State) : Host.Outcome State Fault Refusal :=
  match romR s.in0 with
  | some r => finishOk s [r.used, r.dc, r.mbz, r.nfields] 0 0
  | none => raiseCause s .invalidArgument

/-- MAP_DEV (R155): the ROM constants. -/
def execMapDev (s : State) : Host.Outcome State Fault Refusal :=
  finishOk s [deviceAddress, nReg, nField] 0 0

end Sys2Proof.Machine
end

