-- ==== Sys2Proof/Machine/Dispatch.lean ====
section
/-! DEFINITION. The operation each OPC runs (30_encoding.md R71): one arm per constructor, one meaning per arm. -/

namespace Sys2Proof.Machine

def exec (i : Instr) (s : State) : Host.Outcome State Fault Refusal :=
  match i with
  | .bcdDec => Sys2Proof.Machine.execBcdDec s
  | .bcdEnc => Sys2Proof.Machine.execBcdEnc s
  | .fldGet f => Sys2Proof.Machine.execFldGet f s
  | .fldPut f => Sys2Proof.Machine.execFldPut f s
  | .flgOn f => Sys2Proof.Machine.execFlgOn f s
  | .flgOff f => Sys2Proof.Machine.execFlgOff f s
  | .flgTest f => Sys2Proof.Machine.execFlgTest f s
  | .dtUnpack => Sys2Proof.Machine.execDtUnpack s
  | .dtPack => Sys2Proof.Machine.execDtPack s
  | .tmPack => Sys2Proof.Machine.execTmPack s
  | .almUnpack => Sys2Proof.Machine.execAlmUnpack s
  | .almPack => Sys2Proof.Machine.execAlmPack s
  | .mapField f => Sys2Proof.Machine.execMapField f s
  | .mapReg => Sys2Proof.Machine.execMapReg s
  | .mapDev => Sys2Proof.Machine.execMapDev s

end Sys2Proof.Machine
end

