-- ==== Sys2Proof/Machine/Step.lean ====
section
/-! DEFINITION. One step of the block: one request to one response (10_state.md R24, 20_memory.md R54). -/

namespace Sys2Proof.Machine

/-- `resp = Codec(CMD, IN0..IN7)` (R24): decode the command word first; a word that names no operation raises
IllegalRequest, which "records nothing beyond its code" (60_exceptions.md R302); any other runs its operation. The
request ports stay as the host drives them, so a step on unchanged ports repeats the response (R54). -/
def step (s : State) : Host.Outcome State Fault Refusal :=
  match decode s.cmdWord with
  | .ok i => exec i s
  | .error _ => raiseCause s .illegalRequest

/-- `s` with the table word driven on the CMD port, which is all the next step reads its operation from. -/
def State.withFetchWord (s : State) (nbits w : Nat) : State := s.driveCmd (cmdOfTableWord nbits w)

end Sys2Proof.Machine
end

