-- ==== Sys2Proof/Machine/Assembler.lean ====
section
/-! DEFINITION. The assembler syntax (30_encoding.md R78) and the single-request pseudo-instructions (R79). -/

namespace Sys2Proof.Machine

/-- The mnemonic of an operation (R71). -/
def mnemonicOf : Instr → String
  | .bcdDec => "BCD_DEC"
  | .bcdEnc => "BCD_ENC"
  | .fldGet _ => "FLD_GET"
  | .fldPut _ => "FLD_PUT"
  | .flgOn _ => "FLG_ON"
  | .flgOff _ => "FLG_OFF"
  | .flgTest _ => "FLG_TEST"
  | .dtUnpack => "DT_UNPACK"
  | .dtPack => "DT_PACK"
  | .tmPack => "TM_PACK"
  | .almUnpack => "ALM_UNPACK"
  | .almPack => "ALM_PACK"
  | .mapField _ => "MAP_FIELD"
  | .mapReg => "MAP_REG"
  | .mapDev => "MAP_DEV"

/-- The field names of 40_register_map.md R121 to R150. -/
def fieldName : Field → String
  | .seconds => "SECONDS"
  | .minutes => "MINUTES"
  | .hours => "HOURS"
  | .days => "DAYS"
  | .weekdays => "WEEKDAYS"
  | .months => "MONTHS"
  | .years => "YEARS"
  | .minuteAlarm => "MINUTE_ALARM"
  | .hourAlarm => "HOUR_ALARM"
  | .dayAlarm => "DAY_ALARM"
  | .weekdayAlarm => "WEEKDAY_ALARM"
  | .timerValue => "TIMER_VALUE"
  | .td => "TD"
  | .fd => "FD"
  | .vl => "VL"
  | .c => "C"
  | .aeM => "AE_M"
  | .aeH => "AE_H"
  | .aeD => "AE_D"
  | .aeW => "AE_W"
  | .test1 => "TEST1"
  | .stop => "STOP"
  | .testc => "TESTC"
  | .tiTp => "TI_TP"
  | .af => "AF"
  | .tf => "TF"
  | .aie => "AIE"
  | .tie => "TIE"
  | .te => "TE"
  | .fe => "FE"

/-- Every operation, with every field for those that take one. -/
def allInstrs : List Instr :=
  [.bcdDec, .bcdEnc, .dtUnpack, .dtPack, .tmPack, .almUnpack, .almPack, .mapReg, .mapDev] ++
  fieldsByFid.map .fldGet ++ fieldsByFid.map .fldPut ++ fieldsByFid.map .flgOn ++ fieldsByFid.map .flgOff ++
  fieldsByFid.map .flgTest ++ fieldsByFid.map .mapField

/-- `MNEMONIC [FIELD]` with a mnemonic of R71: FIELD is present exactly when the operation takes a field, and it is
any of the 30 field names (R78). A FLAG-only operation with a non-FLAG name assembles too, to R78's word, which the
block answers with ILLEGAL_REQUEST: R78 does not say whether such a line is written at all. DESIGN CHOICE, log entry 8. -/
def instrOfText (mnemonic : String) (field : Option String) : Option Instr :=
  allInstrs.find? fun i => (mnemonicOf i == mnemonic) && ((i.field?).map fieldName == field)

/-- The components ALM_EN and ALM_DIS take: AE_M, AE_H, AE_D, AE_W (R79). -/
inductive AlarmPart where
  | minute
  | hour
  | day
  | weekday
deriving DecidableEq, Repr

/-- The enable field of a component (44_alarm.md, lane table). -/
def alarmEnableField : AlarmPart → Field
  | .minute => .aeM
  | .hour => .aeH
  | .day => .aeD
  | .weekday => .aeW

/-- The value field of a component (44_alarm.md, lane table). -/
def alarmValueField : AlarmPart → Field
  | .minute => .minuteAlarm
  | .hour => .hourAlarm
  | .day => .dayAlarm
  | .weekday => .weekdayAlarm

/-- The single-request pseudo-instructions (R79). -/
inductive Pseudo where
  | clkRun
  | clkStop
  | tmrOn
  | tmrOff
  | aieOn
  | aieOff
  | tieOn
  | tieOff
  | clkoutOn
  | clkoutOff
  | almEn (p : AlarmPart)
  | almDis (p : AlarmPart)
  | afClr
  | tfClr
  | vlGet
  | afGet
  | tfGet
  | tmrFreq
  | tmrVal
deriving DecidableEq, Repr

/-- The one block request each stands for (R79). -/
def expandPseudo : Pseudo → Instr
  | .clkRun => .flgOff .stop
  | .clkStop => .flgOn .stop
  | .tmrOn => .flgOn .te
  | .tmrOff => .flgOff .te
  | .aieOn => .flgOn .aie
  | .aieOff => .flgOff .aie
  | .tieOn => .flgOn .tie
  | .tieOff => .flgOff .tie
  | .clkoutOn => .flgOn .fe
  | .clkoutOff => .flgOff .fe
  | .almEn p => .flgOn (alarmEnableField p)
  | .almDis p => .flgOff (alarmEnableField p)
  | .afClr => .flgOff .af
  | .tfClr => .flgOff .tf
  | .vlGet => .flgTest .vl
  | .afGet => .flgTest .af
  | .tfGet => .flgTest .tf
  | .tmrFreq => .fldPut .td
  | .tmrVal => .fldPut .timerValue

/-- The written name of a pseudo-instruction (R79); ALM_EN and ALM_DIS are followed by their component's field. -/
def pseudoName : Pseudo → String
  | .clkRun => "CLK_RUN"
  | .clkStop => "CLK_STOP"
  | .tmrOn => "TMR_ON"
  | .tmrOff => "TMR_OFF"
  | .aieOn => "AIE_ON"
  | .aieOff => "AIE_OFF"
  | .tieOn => "TIE_ON"
  | .tieOff => "TIE_OFF"
  | .clkoutOn => "CLKOUT_ON"
  | .clkoutOff => "CLKOUT_OFF"
  | .almEn _ => "ALM_EN"
  | .almDis _ => "ALM_DIS"
  | .afClr => "AF_CLR"
  | .tfClr => "TF_CLR"
  | .vlGet => "VL_GET"
  | .afGet => "AF_GET"
  | .tfGet => "TF_GET"
  | .tmrFreq => "TMR_FREQ"
  | .tmrVal => "TMR_VAL"

/-- Every single-request pseudo-instruction of the table of R79. -/
def allPseudos : List Pseudo :=
  [.clkRun, .clkStop, .tmrOn, .tmrOff, .aieOn, .aieOff, .tieOn, .tieOff, .clkoutOn, .clkoutOff,
   .almEn .minute, .almEn .hour, .almEn .day, .almEn .weekday,
   .almDis .minute, .almDis .hour, .almDis .day, .almDis .weekday,
   .afClr, .tfClr, .vlGet, .afGet, .tfGet, .tmrFreq, .tmrVal]

/-- The field written after a pseudo-instruction's name: ALM_EN and ALM_DIS name their component's AE field, the others
none, their field being part of the alias (R79). -/
def pseudoField : Pseudo → Option Field
  | .clkRun => none
  | .clkStop => none
  | .tmrOn => none
  | .tmrOff => none
  | .aieOn => none
  | .aieOff => none
  | .tieOn => none
  | .tieOff => none
  | .clkoutOn => none
  | .clkoutOff => none
  | .almEn p => some (alarmEnableField p)
  | .almDis p => some (alarmEnableField p)
  | .afClr => none
  | .tfClr => none
  | .vlGet => none
  | .afGet => none
  | .tfGet => none
  | .tmrFreq => none
  | .tmrVal => none

/-- A written alias: `CLK_RUN`, or `ALM_EN f` with f in AE_M, AE_H, AE_D, AE_W (R79). -/
def pseudoOfText (name : String) (field : Option String) : Option Pseudo :=
  allPseudos.find? fun p => (pseudoName p == name) && ((pseudoField p).map fieldName == field)

/-- The one operation a written request names: by its mnemonic (R78), or by an alias of it (R79). -/
def operationOfText (name : String) (field : Option String) : Option Instr :=
  match instrOfText name field with
  | some i => some i
  | none => (pseudoOfText name field).map expandPseudo

/-- `NAME [FIELD] [; IN=[b0, b1, ...]]` as a request, NAME a mnemonic (R78) or a single-request alias (R79): "any byte
not listed is 0". More than eight bytes name no request: DESIGN CHOICE, log entry 8. -/
def assemble (name : String) (field : Option String) (ins : List Byte) : Option Request :=
  if ins.length ≤ 8 then (operationOfText name field).map fun i => ⟨encode i, lanesOf ins⟩ else none

end Sys2Proof.Machine
end

