-- ==== Sys2Proof/Machine/Fixture.lean ====
section
/-! DEFINITION. The host's side, for host programs only: the RTC register file as the test fixture of 10_state.md R31,
and the host's bus transactions `RD` and `WR` on it (00_scope.md R12). No part of the block: the block's State holds
none of it, and no step of the block reads or writes it (10_state.md R30). Log entry 6. -/

namespace Sys2Proof.Machine

/-- A change a program's start state schedules (R31, 95_test_vectors.md P4): when `after` more bytes have been read,
counted from the event before it, each listed register takes its new byte. Events happen only as a byte is read, one
event a byte, so `after = 0` is due with the next byte, as `after = 1` is. DESIGN CHOICE, log entry 6. -/
structure RtcEvent where
  after   : Nat
  changes : List (Nat × Byte)
deriving DecidableEq, Repr

/-- The host's bench: the block, the fixture `REG[0x00..0x0F]`, and what the start state schedules. -/
structure Bench where
  block    : State
  reg      : Vector Byte 16
  schedule : List RtcEvent
deriving DecidableEq, Repr

/-- `REG[a] <- b`; only 0x00..0x0F exist (20_memory.md R50), so elsewhere there is no result. -/
def writeReg (reg : Vector Byte 16) (a : Nat) (b : Byte) : Option (Vector Byte 16) :=
  if h : a < 16 then some (reg.set a b h) else none

/-- A scheduled event's changes. -/
def applyChanges (reg : Vector Byte 16) : List (Nat × Byte) → Option (Vector Byte 16)
  | [] => some reg
  | (a, b) :: rest =>
    match writeReg reg a b with
    | some reg' => applyChanges reg' rest
    | none => none

/-- One byte has been read: the first scheduled event comes one byte nearer, and happens when it is due (R31), which
`after` 0 and 1 both are. At most one event happens: changes of one gap belong in one event. DESIGN CHOICE, log entry 6. -/
def Bench.afterByte (b : Bench) : Option Bench :=
  match b.schedule with
  | [] => some b
  | e :: rest =>
    if e.after ≤ 1 then
      match applyChanges b.reg e.changes with
      | some reg' => some { b with reg := reg', schedule := rest }
      | none => none
    else some { b with schedule := { e with after := e.after - 1 } :: rest }

/-- `RD a, n` (R12): n bytes from register a upward, byte by byte, with auto-increment (20_memory.md R51). The chip may
change between two bytes (20_memory.md R55). -/
def Bench.rd (a : Nat) : Nat → Bench → Option (List Byte × Bench)
  | 0, b => some ([], b)
  | n + 1, b =>
    match b.reg[a]?, b.afterByte with
    | some x, some b' =>
      match Bench.rd (a + 1) n b' with
      | some (xs, b'') => some (x :: xs, b'')
      | none => none
    | _, _ => none

/-- `WR a, b0..b(n-1)` on the register file (R12): `REG[a+k] <- bytes[k]` (R31). -/
def writeRegs (reg : Vector Byte 16) (a : Nat) : List Byte → Option (Vector Byte 16)
  | [] => some reg
  | x :: xs =>
    match writeReg reg a x with
    | some reg' => writeRegs reg' (a + 1) xs
    | none => none

/-- `WR a, bytes` (R12). -/
def Bench.wr (a : Nat) (bytes : List Byte) (b : Bench) : Option Bench :=
  match writeRegs b.reg a bytes with
  | some reg' => some { b with reg := reg' }
  | none => none

/-- The host issues one request and the block answers it (R24). -/
def Bench.request (r : Request) (b : Bench) : Option Bench :=
  match step (b.block.present r) with
  | .next s => some { b with block := s }
  | .fault _ => none
  | .refused _ => none

/-- `MNEMONIC FIELD ; IN=[bytes]` issued as a request (30_encoding.md R78). -/
def Bench.issue (i : Instr) (bytes : List Byte) (b : Bench) : Option Bench :=
  b.request ⟨encode i, lanesOf bytes⟩

/-- The host writes the bytes of a response only when STATUS is OK, and exactly RLEN of them from RADDR
(70_reset_and_hazards.md R338). -/
def Bench.commit (b : Bench) : Option Bench :=
  if b.block.resp.status = .ok then
    b.wr b.block.resp.raddr.toNat (b.block.resp.out.toList.take b.block.resp.rlen.toNat)
  else some b

end Sys2Proof.Machine
end

