-- ==== Sys2Proof/Machine/Facade.lean ====
section
/-! DEFINITION. The host sequences of 30_encoding.md R79 and the host programs of 70_reset_and_hazards.md R333 and
R334, over the fixture. A decoded result is left on the block's response ports. The facade is outside the block's
scope (00_scope.md R6): these are host programs built from block requests. Log entry 6. -/

namespace Sys2Proof.Machine

/-- `RD x, n`, then one request whose IN bytes are the bytes read and then `more`. -/
def Bench.readThenIssue (i : Instr) (x n : Nat) (more : List Byte) (b : Bench) : Option Bench :=
  match b.rd x n with
  | some (bytes, b') => b'.issue i (bytes ++ more)
  | none => none

/-- One request, written back on OK (R79, R338). -/
def Bench.issueThenCommit (i : Instr) (bytes : List Byte) (b : Bench) : Option Bench :=
  match b.issue i bytes with
  | some b' => b'.commit
  | none => none

/-- Read-modify-write of the register field f lives in, with operation i; the old byte is a fresh read (R337). -/
def Bench.rmw (i : Instr) (f : Field) (more : List Byte) (b : Bench) : Option Bench :=
  match b.readThenIssue i (romF f).reg.toNat 1 more with
  | some b' => b'.commit
  | none => none

/-- RMW of one field f to value v (R79). -/
def Bench.setField (f : Field) (v : Byte) : Bench → Option Bench := Bench.rmw (.fldPut f) f [v]

/-- RMW of one flag f (R79). -/
def Bench.setFlag (f : Field) (on : Bool) : Bench → Option Bench :=
  Bench.rmw (if on then .flgOn f else .flgOff f) f []

/-- Read of one field f (R79). -/
def Bench.readField (f : Field) : Bench → Option Bench :=
  Bench.readThenIssue (.fldGet f) (romF f).reg.toNat 1 []

/-- Read of one flag f (R79). -/
def Bench.testFlag (f : Field) : Bench → Option Bench :=
  Bench.readThenIssue (.flgTest f) (romF f).reg.toNat 1 []

/-- `get_datetime` with its one retry (R79, R334): re-read the seven bytes when the first read's seconds are 59. -/
def Bench.getDatetime (b : Bench) : Option Bench :=
  match b.readThenIssue .dtUnpack 0x02 7 [] with
  | some b' =>
    if b'.block.resp.status = .ok ∧ b'.block.resp.out.l0 = 59 then b'.readThenIssue .dtUnpack 0x02 7 []
    else some b'
  | none => none

/-- `set_datetime(s, mi, h, d, w, mo, y)` (R79). -/
def Bench.setDatetime (s mi h d w mo y : Byte) : Bench → Option Bench :=
  Bench.issueThenCommit .dtPack [s, mi, h, d, w, mo, y]

/-- The three ways R223 names to put the century bit into DT_PACK's OUT5: FLD_PUT C with a raw bit, FLG_ON C, FLG_OFF C. -/
inductive CenturyWrite where
  | put (v : Byte)
  | on
  | off
deriving DecidableEq, Repr

/-- The operation of a century write (43_datetime.md R223). -/
def centuryInstr : CenturyWrite → Instr
  | .put _ => .fldPut .c
  | .on => .flgOn .c
  | .off => .flgOff .c

/-- The IN bytes of a century write after the old byte: FLD_PUT takes the value (42_field_ops.md R185 to R187). -/
def centuryOperands : CenturyWrite → List Byte
  | .put v => [v]
  | .on => []
  | .off => []

/-- With an OK response of DT_PACK on the ports, the century written into its OUT5, and then its bytes written from its
RADDR (43_datetime.md R223); on an error nothing is written (R338). -/
def Bench.insertCentury (c : CenturyWrite) (b : Bench) : Option Bench :=
  match b.issue (centuryInstr c) (b.block.resp.out.l5 :: centuryOperands c) with
  | some b' =>
    if b'.block.resp.status = .ok then
      b'.wr b.block.resp.raddr.toNat
        (({ b.block.resp.out with l5 := b'.block.resp.out.l0 } : Lanes).toList.take b.block.resp.rlen.toNat)
    else some b'
  | none => none

/-- `set_datetime` with the century bit put into OUT5 before the write: R223's second way to keep the century. -/
def Bench.setDatetimeWithCentury (s mi h d w mo y : Byte) (c : CenturyWrite) (b : Bench) : Option Bench :=
  match b.issue .dtPack [s, mi, h, d, w, mo, y] with
  | some b' => if b'.block.resp.status = .ok then b'.insertCentury c else some b'
  | none => none

/-- `set_datetime` that keeps the century: register 0x07 is read first and its C re-inserted (R336). FLD_GET C never
fails (42_field_ops.md R180). -/
def Bench.setDatetimeKeepingCentury (s mi h d w mo y : Byte) (b : Bench) : Option Bench :=
  match b.readField .c with
  | some b' => b'.setDatetimeWithCentury s mi h d w mo y (.put b'.block.resp.out.l0)
  | none => none

/-- `set_time(s, mi, h)` (R79). -/
def Bench.setTime (s mi h : Byte) : Bench → Option Bench := Bench.issueThenCommit .tmPack [s, mi, h]

/-- `get_alarm` (R79). -/
def Bench.getAlarm : Bench → Option Bench := Bench.readThenIssue .almUnpack 0x09 4 []

/-- `set_alarm(v0..v3, e0..e3)` (R79). -/
def Bench.setAlarm (v0 v1 v2 v3 e0 e1 e2 e3 : Byte) : Bench → Option Bench :=
  Bench.issueThenCommit .almPack [v0, v1, v2, v3, e0, e1, e2, e3]

/-- A single-request pseudo-instruction as its facade operation (R79): a getter reads, any other is an RMW; `v` is the
value TMR_FREQ and TMR_VAL take, and the others ignore it. -/
def Bench.runPseudo (p : Pseudo) (v : Byte) : Bench → Option Bench :=
  match expandPseudo p with
  | .flgTest f => Bench.testFlag f
  | .fldPut f => Bench.setField f v
  | .flgOn f => Bench.setFlag f true
  | .flgOff f => Bench.setFlag f false
  | _ => some

/-- `init` (R333): control/status 1 and 2 to 0, then the timer-control byte `FLD_PUT TD ; IN=[0x00, 3]` gives. -/
def Bench.init (b : Bench) : Option Bench :=
  match b.wr 0x00 [0x00, 0x00] with
  | some b' => b'.issueThenCommit (.fldPut .td) [0x00, 3]
  | none => none

/-- The host sequences: the rows of R79's second table, the aliases of its first as facade operations, `init` (R333),
and the two datetime writes of R223 and R336 that keep the century. -/
inductive Sequence where
  | getDatetime
  | setDatetime (s mi h d w mo y : Byte)
  | setDatetimeWithCentury (s mi h d w mo y : Byte) (c : CenturyWrite)
  | setDatetimeKeepingCentury (s mi h d w mo y : Byte)
  | setTime (s mi h : Byte)
  | getAlarm
  | setAlarm (v0 v1 v2 v3 e0 e1 e2 e3 : Byte)
  | setField (f : Field) (v : Byte)
  | setFlag (f : Field) (on : Bool)
  | readField (f : Field)
  | testFlag (f : Field)
  | pseudo (p : Pseudo) (v : Byte)
  | init
deriving DecidableEq, Repr

/-- What a host sequence does on the bench (R79, R333). -/
def Bench.runSequence (q : Sequence) (b : Bench) : Option Bench :=
  match q with
  | .getDatetime => b.getDatetime
  | .setDatetime s mi h d w mo y => b.setDatetime s mi h d w mo y
  | .setDatetimeWithCentury s mi h d w mo y c => b.setDatetimeWithCentury s mi h d w mo y c
  | .setDatetimeKeepingCentury s mi h d w mo y => b.setDatetimeKeepingCentury s mi h d w mo y
  | .setTime s mi h => b.setTime s mi h
  | .getAlarm => b.getAlarm
  | .setAlarm v0 v1 v2 v3 e0 e1 e2 e3 => b.setAlarm v0 v1 v2 v3 e0 e1 e2 e3
  | .setField f v => b.setField f v
  | .setFlag f on => b.setFlag f on
  | .readField f => b.readField f
  | .testFlag f => b.testFlag f
  | .pseudo p v => b.runPseudo p v
  | .init => b.init

/-- A sequence by the name and the arguments R79 writes it with. The RMW and the read of one field or flag have no
written name there, and are their constructors alone. -/
def sequenceOfText (name : String) (args : List Byte) : Option Sequence :=
  match args with
  | [] =>
    if name = "get_datetime" then some .getDatetime
    else if name = "get_alarm" then some .getAlarm
    else if name = "init" then some .init
    else none
  | [s, mi, h] => if name = "set_time" then some (.setTime s mi h) else none
  | [s, mi, h, d, w, mo, y] => if name = "set_datetime" then some (.setDatetime s mi h d w mo y) else none
  | [v0, v1, v2, v3, e0, e1, e2, e3] =>
    if name = "set_alarm" then some (.setAlarm v0 v1 v2 v3 e0 e1 e2 e3) else none
  | _ => none

/-- The full year of a two-digit year and a century bit, the host's job (10_state.md R33), with the OPEN parameter
CENTURY_EPOCH_OF_C0; the epoch of C = 1 is a free value. Log entry 3. -/
def fullYear (century : Byte) (year : Nat) : Nat :=
  (if century = 0 then Config.centuryEpochOfC0 else Config.centuryEpochOfC1) + year

/-- The frequency a TD code names, as numerator and denominator in Hz (40_register_map.md R133). Informational: the
block passes codes through (93_implementation_defined.md I22), and no step reads this. UNVERIFIED, log entry 4. -/
def tdFrequency (code : Byte) : Option (Nat × Nat) :=
  [(4096, 1), (64, 1), (1, 1), (1, 60)][code.toNat]?

/-- The frequency an FD code names, as numerator and denominator in Hz (R134). Informational as `tdFrequency` is.
UNVERIFIED, log entry 4. -/
def fdFrequency (code : Byte) : Option (Nat × Nat) :=
  [(32768, 1), (1024, 1), (32, 1), (1, 1)][code.toNat]?

end Sys2Proof.Machine
end

