-- ==== Sys2Proof/Safety.lean ====
section
/-! DEFINITION. What a safe answer and a safe run are (10_state.md R23, R24; 60_exceptions.md R301), and the words the
statements use: the rules read as relations on numbers, apart from the functions that compute them. -/

namespace Sys2Proof.Machine

/-- The eight lanes all zero (R301). -/
def Lanes.zero : Lanes := ⟨0, 0, 0, 0, 0, 0, 0, 0⟩

/-- The next state is `s` with nothing but the response ports changed, and they hold `r` (R23). -/
def answered (s : State) (r : Response) : Host.Outcome State Fault Refusal := .next { s with resp := r }

/-- The answer of an error: STATUS, OUT0..OUT7 all 0, RADDR = 0 and RLEN = 0 (R301). -/
def failed (s : State) (st : Status) : Host.Outcome State Fault Refusal := answered s ⟨st, Lanes.zero, 0, 0⟩

/-- The request answers OK with `b` in OUT0. -/
def AnswersByte (o : Host.Outcome State Fault Refusal) (b : Byte) : Prop :=
  ∃ t, o = .next t ∧ t.resp.status = .ok ∧ t.resp.out.l0 = b

/-- `s` with these bytes on the IN ports, the bytes not listed 0 (30_encoding.md R78). -/
def State.withIns (s : State) (bytes : List Byte) : State := { s with req := { s.req with ins := lanesOf bytes } }

/-- The response's shape: RLEN counts 0..7 registers and RADDR is 0 when RLEN is 0 (R23); the registers named exist
(20_memory.md R50: 0x00..0x0F); an error carries only its code (R301). -/
structure Response.Coherent (r : Response) : Prop where
  rlen_le : r.rlen.toNat ≤ 7
  raddr_zero : r.rlen = 0 → r.raddr = 0
  registers_exist : r.raddr.toNat + r.rlen.toNat ≤ 16
  error_empty : r.status ≠ .ok → r.out = Lanes.zero ∧ r.raddr = 0 ∧ r.rlen = 0

/-- The model's invariant: the response ports hold OUT_RESET still (70_reset_and_hazards.md R331, log entry 2) or a
coherent answer. -/
def State.RespInv (s : State) : Prop := s.resp = outReset ∨ s.resp.Coherent

/-- A run of k steps completes: no step of it stops. -/
def RunsFor (k : Nat) (s : State) : Prop := ∃ t, Sys2Proof.core.run k s = .next t

/-- OPC of a word as a number (30_encoding.md R70). -/
def opcOf (w : Word) : Nat := w.toNat / 4096

/-- RSV and FID together, the low twelve bits of a word as a number: below 32 exactly when RSV = 0, and then FID (R70). -/
def lowOf (w : Word) : Nat := w.toNat % 4096

/-- The causes (a) to (e) of 60_exceptions.md R302, on the word's numbers; the non-FLAG FIDs are 0..13 (R76). -/
def IllegalWord (w : Word) : Prop :=
  w.toNat / 32 % 128 ≠ 0 ∨
  opcOf w = 15 ∨
  (opcOf w ∈ [2, 3, 4, 5, 6, 12] ∧ 30 ≤ w.toNat % 32) ∨
  (opcOf w ∈ [4, 5, 6] ∧ w.toNat % 32 ≤ 13) ∨
  (opcOf w ∉ [2, 3, 4, 5, 6, 12] ∧ w.toNat % 32 ≠ 0)

/-- The IN lanes an operation reads: the "reads" column of 30_encoding.md R71. -/
def readsLane : Instr → Fin 8 → Bool
  | .bcdDec, k => decide (k.val ≤ 1)
  | .bcdEnc, k => decide (k.val ≤ 1)
  | .fldGet _, k => decide (k.val = 0)
  | .fldPut _, k => decide (k.val ≤ 1)
  | .flgOn _, k => decide (k.val = 0)
  | .flgOff _, k => decide (k.val = 0)
  | .flgTest _, k => decide (k.val = 0)
  | .dtUnpack, k => decide (k.val ≤ 6)
  | .dtPack, k => decide (k.val ≤ 6)
  | .tmPack, k => decide (k.val ≤ 2)
  | .almUnpack, k => decide (k.val ≤ 3)
  | .almPack, _ => true
  | .mapField _, _ => false
  | .mapReg, k => decide (k.val = 0)
  | .mapDev, _ => false

/-- Byte x holds the packed decimal of n: tens in bits 7:4, ones in bits 3:0 (20_memory.md R52, 41_bcd_codec.md R160). -/
def HoldsBcd (x : Byte) (n : Nat) : Prop := ∃ t o : Nat, t ≤ 9 ∧ o ≤ 9 ∧ x.toNat = 16 * t + o ∧ n = 10 * t + o

/-- The packed decimal of n as a byte (R160). -/
def packed (n : Nat) : Byte := toByte (16 * (n / 10) + n % 10)

/-- Field d of byte x has value v: the mask first, the bits read from the lowest marked one upward, then the kind's
digits and range (42_field_ops.md R180). No v at all is the anomaly. -/
def HoldsField (d : FieldDesc) (x : Byte) (v : Nat) : Prop :=
  match d.kind with
  | .bcd => HoldsBcd ((x &&& d.mask) >>> d.shift.toNat) v ∧ d.lo.toNat ≤ v ∧ v ≤ d.hi.toNat
  | .bin => v = (x &&& d.mask).toNat / 2 ^ d.shift.toNat ∧ d.lo.toNat ≤ v ∧ v ≤ d.hi.toNat
  | .enum => v = (x &&& d.mask).toNat / 2 ^ d.shift.toNat
  | .flag => v = (x &&& d.mask).toNat / 2 ^ d.shift.toNat

/-- `out` is `old` with the bits of mask m taken from `bits` and every other bit kept (R182). -/
def Inserts (m old bits out : Byte) : Prop :=
  ∀ i, i < 8 → out.getLsbD i = if m.getLsbD i then bits.getLsbD i else old.getLsbD i

/-- The seven register bytes IN0..IN6 hold this datetime under the masks of registers 0x02..0x08, each value in its
range (43_datetime.md, lane table). -/
structure HoldsDatetime (x : Lanes) (s mi h d w mo y : Nat) : Prop where
  seconds : HoldsBcd (x.l0 &&& 0x7F) s ∧ s ≤ 59
  minutes : HoldsBcd (x.l1 &&& 0x7F) mi ∧ mi ≤ 59
  hours : HoldsBcd (x.l2 &&& 0x3F) h ∧ h ≤ 23
  days : HoldsBcd (x.l3 &&& 0x3F) d ∧ 1 ≤ d ∧ d ≤ 31
  weekdays : (x.l4 &&& 0x07).toNat = w ∧ w ≤ 6
  months : HoldsBcd (x.l5 &&& 0x1F) mo ∧ 1 ≤ mo ∧ mo ≤ 12
  years : HoldsBcd x.l6 y ∧ y ≤ 99

/-- The ranges of a time of day (43_datetime.md, lane table). -/
def TimeInRange (s mi h : Nat) : Prop := s ≤ 59 ∧ mi ≤ 59 ∧ h ≤ 23

/-- The ranges of a full datetime (43_datetime.md, lane table). -/
def DatetimeInRange (s mi h d w mo y : Nat) : Prop :=
  TimeInRange s mi h ∧ 1 ≤ d ∧ d ≤ 31 ∧ w ≤ 6 ∧ 1 ≤ mo ∧ mo ≤ 12 ∧ y ≤ 99

/-- The four register bytes IN0..IN3 hold these alarm values under the masks of registers 0x09..0x0C, each in its range
(44_alarm.md, lane table). -/
structure HoldsAlarm (x : Lanes) (m h d w : Nat) : Prop where
  minute : HoldsBcd (x.l0 &&& 0x7F) m ∧ m ≤ 59
  hour : HoldsBcd (x.l1 &&& 0x3F) h ∧ h ≤ 23
  day : HoldsBcd (x.l2 &&& 0x3F) d ∧ 1 ≤ d ∧ d ≤ 31
  weekday : (x.l3 &&& 0x07).toNat = w ∧ w ≤ 6

/-- The ranges of the alarm values (44_alarm.md, lane table). -/
def AlarmInRange (m h d w : Nat) : Prop := m ≤ 59 ∧ h ≤ 23 ∧ 1 ≤ d ∧ d ≤ 31 ∧ w ≤ 6

/-- The AE bit of an alarm register: set (0x80) when the component is disabled (44_alarm.md R241). -/
def aeBits (enable : Nat) : Byte := if enable = 1 then 0x00 else 0x80

/-- The century bit a write puts into the month register, as a number: legal when it is 0 or 1 (43_datetime.md R223,
42_field_ops.md R185 to R187; C is active-high, 40_register_map.md R136). -/
def centuryValue : CenturyWrite → Nat
  | .put v => v.toNat
  | .on => 1
  | .off => 0

/-- A century value in register position: bit 7 of the month register (40_register_map.md R136). -/
def centuryBits (c : Nat) : Byte := if c = 1 then 0x80 else 0x00

/-- No register of the fixture has a must-be-zero bit set (93_implementation_defined.md I18). -/
def MbzClear (reg : Vector Byte 16) : Prop :=
  ∀ a : Fin 16, ∀ r, romR (BitVec.ofNat 8 a.val) = some r → reg[a] &&& r.mbz = 0

end Sys2Proof.Machine
end

