-- ==== Sys2Proof/Certificates/Slice0/Obligations.lean ====
section
/-! DEFINITION. The statements. Each docstring names the rule of spec/ it formalises. `answered s r` is the whole next
state: `s` with nothing but the response ports changed (Safety.lean), so each result statement states its frame too. -/

open Sys2Proof Sys2Proof.Machine

/-! ### Encoding and decoding -/

/-- Every well-formed operation's word decodes to it, whatever its field (R70 to R72, R78). -/
def Obligations.DecodeOfEncode : Prop :=
  ∀ i : Instr, i.wellFormed = true → decode (encode i) = .ok i

/-- Every legal word is the word of the operation it decodes to, and that operation is well formed (R70, R72). -/
def Obligations.EncodeOfDecode : Prop :=
  ∀ (w : Word) (i : Instr), decode w = .ok i → encode i = w ∧ i.wellFormed = true

/-- Of the 65536 command words exactly 147 are legal (R75). -/
def Obligations.LegalWordsAre147 : Prop :=
  ∃ l : List Word, l.Nodup ∧ l.length = 147 ∧ ∀ w : Word, w ∈ l ↔ ∃ i, decode w = .ok i

/-- R302, R76: the causes (a) to (e) are exactly what makes the block answer ILLEGAL_REQUEST, which carries nothing
beyond its code; any other word runs an operation, and its STATUS is not ILLEGAL_REQUEST. -/
def Obligations.IllegalWordsAnswerIllegalRequest : Prop :=
  ∀ s : State,
    (IllegalWord s.req.cmd → step s = failed s .illegalRequest) ∧
    (¬ IllegalWord s.req.cmd →
      ∃ i t, decode s.req.cmd = .ok i ∧ step s = exec i s ∧ exec i s = .next t ∧ t.resp.status ≠ .illegalRequest)

/-- Words written out from the opcode map (R71) and the format (R70) decode to the operations they stand for. -/
def Obligations.OpcodeMapWords : Prop :=
  decode 0b0000000000000000#16 = .ok .bcdDec ∧
  decode 0b0001000000000000#16 = .ok .bcdEnc ∧
  decode 0b0010000000000010#16 = .ok (.fldGet .hours) ∧
  decode 0b0011000000001000#16 = .ok (.fldPut .hourAlarm) ∧
  decode 0b0100000000010101#16 = .ok (.flgOn .stop) ∧
  decode 0b0101000000011000#16 = .ok (.flgOff .af) ∧
  decode 0b0110000000011001#16 = .ok (.flgTest .tf) ∧
  decode 0b0111000000000000#16 = .ok .dtUnpack ∧
  decode 0b1000000000000000#16 = .ok .dtPack ∧
  decode 0b1001000000000000#16 = .ok .tmPack ∧
  decode 0b1010000000000000#16 = .ok .almUnpack ∧
  decode 0b1011000000000000#16 = .ok .almPack ∧
  decode 0b1100000000010001#16 = .ok (.mapField .aeH) ∧
  decode 0b1101000000000000#16 = .ok .mapReg ∧
  decode 0b1110000000000000#16 = .ok .mapDev

/-- When the word on CMD decodes to an operation, the step is that operation at that state, and nothing around it. -/
def Obligations.StepRunsTheDecodedOperation : Prop :=
  ∀ (s : State) (i : Instr), decode s.req.cmd = .ok i → step s = exec i s

/-! ### The block as a whole -/

/-- R24: one step maps one request to one response; the response is a total function of the request alone, not of the
response ports, and the next state holds that response and the unchanged request. -/
def Obligations.CodecIsAFunctionOfTheRequest : Prop :=
  ∃ codec : Request → Response, ∀ s : State, step s = answered s (codec s.req)

/-- Every answer has the shape R23 and R301 give it. -/
def Obligations.EveryAnswerIsCoherent : Prop :=
  ∀ s t : State, step s = .next t → t.req = s.req ∧ t.resp.Coherent

/-- The invariant holds at reset. It rests on the model's reset value OUT_RESET, an opaque constant (log entry 2). -/
def Obligations.ResetMeetsRespInv : Prop := State.reset.RespInv

/-- Every step keeps the invariant, from any state that meets it. -/
def Obligations.StepKeepsRespInv : Prop :=
  ∀ s t : State, s.RespInv → step s = .next t → t.RespInv

/-- Every run of any length completes, from any state (R24, R308: no error is fatal). -/
def Obligations.EveryRunCompletes : Prop :=
  ∀ (k : Nat) (s : State), RunsFor k s

/-- R54: repeating a request gives the same response, so a second step on the same ports changes nothing. -/
def Obligations.RepeatedRequestRepeatsTheResponse : Prop :=
  ∀ s t : State, step s = .next t → step t = .next t

/-- R74: an IN byte an operation does not read has no effect on the response. -/
def Obligations.UnreadLanesHaveNoEffect : Prop :=
  ∀ (i : Instr) (s s' t : State),
    (∀ k, readsLane i k = true → s.inByte k = s'.inByte k) →
    exec i s = .next t → exec i s' = answered s' t.resp

/-- The frame of every operation: the request ports are unchanged, and no operation stops. -/
def Obligations.EveryOperationKeepsTheRequestPorts : Prop :=
  ∀ (i : Instr) (s : State), ∃ t, exec i s = .next t ∧ t.req = s.req

/-- R301: an error answers its STATUS with OUT, RADDR and RLEN all 0, changes nothing a later request can see, and leaves a host
that writes RLEN bytes nothing to write. -/
def Obligations.ErrorsCarryNothing : Prop :=
  ∀ s t : State, step s = .next t → t.resp.status ≠ .ok →
    step s = failed s t.resp.status ∧
    (∀ (q : Request) (u : State), step (s.present q) = .next u → step (t.present q) = .next u) ∧
    ∀ b : Bench, b.wr t.resp.raddr.toNat (t.resp.out.toList.take t.resp.rlen.toNat) = some b

/-- R300: the four STATUS codes, and exactly which operations raise which class. -/
def Obligations.StatusCodesAndWhoRaisesThem : Prop :=
  (statusCode .ok = 0 ∧ statusCode .invalidArgument = 1 ∧ statusCode .decodeAnomaly = 2 ∧
    statusCode .illegalRequest = 3) ∧
  (∀ o : BitVec 4, (∃ i s t, Instr.opc i = o ∧ Instr.wellFormed i = true ∧ exec i s = .next t ∧
      t.resp.status = .ok) ↔ o ≠ 0xF) ∧
  (∀ o : BitVec 4, (∃ i s t, Instr.opc i = o ∧ exec i s = .next t ∧ t.resp.status = .invalidArgument) ↔
      o ∈ ([0x1, 0x3, 0x8, 0x9, 0xB, 0xD] : List (BitVec 4))) ∧
  (∀ o : BitVec 4, (∃ i s t, Instr.opc i = o ∧ exec i s = .next t ∧ t.resp.status = .decodeAnomaly) ↔
      o ∈ ([0x0, 0x2, 0x7, 0xA] : List (BitVec 4))) ∧
  (∀ o : BitVec 4, ∃ s t, opcOf s.req.cmd = o.toNat ∧ step s = .next t ∧ t.resp.status = .illegalRequest)

/-! ### BCD codec -/

/-- R160: dec2bcd is a bijection from 0..99 onto the 100 bytes with bcd_ok, and bcd2dec is its inverse. -/
def Obligations.BcdHelpersAreInverse : Prop :=
  ((List.range 256).filter fun n => bcdOk (toByte n)).length = 100 ∧
  (∀ d : Nat, d ≤ 99 → bcdOk (dec2bcd d) = true ∧ bcd2dec (dec2bcd d) = d ∧ dec2bcd d = packed d) ∧
  (∀ v : Byte, bcdOk v = true → bcd2dec v ≤ 99 ∧ dec2bcd (bcd2dec v) = v)

/-- R162: BCD_DEC. -/
def Obligations.BcdDecResult : Prop :=
  decode 0x0000#16 = .ok .bcdDec ∧
  (∀ (s : State) (n : Nat), HoldsBcd (s.req.ins.l0 &&& s.req.ins.l1) n →
    exec .bcdDec s = answered s ⟨.ok, ⟨toByte n, 0, 0, 0, 0, 0, 0, 0⟩, 0, 0⟩) ∧
  (∀ s : State, (¬ ∃ n, HoldsBcd (s.req.ins.l0 &&& s.req.ins.l1) n) →
    exec .bcdDec s = failed s .decodeAnomaly) ∧
  (∀ s : State, opcOf s.req.cmd = 0x0 → lowOf s.req.cmd ≠ 0 → step s = failed s .illegalRequest)

/-- R163: BCD_ENC. -/
def Obligations.BcdEncResult : Prop :=
  decode 0x1000#16 = .ok .bcdEnc ∧
  (∀ s : State, s.req.ins.l0.toNat ≤ 99 → packed s.req.ins.l0.toNat &&& ~~~s.req.ins.l1 = 0 →
    exec .bcdEnc s = answered s ⟨.ok, ⟨packed s.req.ins.l0.toNat, 0, 0, 0, 0, 0, 0, 0⟩, 0, 0⟩) ∧
  (∀ s : State, 99 < s.req.ins.l0.toNat ∨ packed s.req.ins.l0.toNat &&& ~~~s.req.ins.l1 ≠ 0 →
    exec .bcdEnc s = failed s .invalidArgument) ∧
  (∀ s : State, opcOf s.req.cmd = 0x1 → lowOf s.req.cmd ≠ 0 → step s = failed s .illegalRequest)

/-- R164: the four laws of the codec (round trip for every mask, inverse, masking, rejection). -/
def Obligations.BcdCodecLaws : Prop :=
  (∀ (s : State) (d m b : Byte), AnswersByte (exec .bcdEnc (s.withIns [d, m])) b →
    AnswersByte (exec .bcdDec (s.withIns [b, m])) d) ∧
  (∀ (s : State) (d : Byte), d.toNat ≤ 99 → ∃ b, AnswersByte (exec .bcdEnc (s.withIns [d, 0xFF])) b ∧
    AnswersByte (exec .bcdDec (s.withIns [b, 0xFF])) d) ∧
  (∀ (s : State) (v : Byte), bcdOk v = true → ∃ d, AnswersByte (exec .bcdDec (s.withIns [v, 0xFF])) d ∧
    AnswersByte (exec .bcdEnc (s.withIns [d, 0xFF])) v) ∧
  (∀ s s' t : State, s.req.ins.l1 = s'.req.ins.l1 →
    s.req.ins.l0 &&& s.req.ins.l1 = s'.req.ins.l0 &&& s.req.ins.l1 →
    exec .bcdDec s = .next t → exec .bcdDec s' = answered s' t.resp) ∧
  (∀ (s : State) (d m : Byte), 100 ≤ d.toNat →
    exec .bcdEnc (s.withIns [d, m]) = failed (s.withIns [d, m]) .invalidArgument)

/-! ### Field operations -/

/-- R184: FLD_GET, for every one of the 30 fields. -/
def Obligations.FldGetResult : Prop :=
  (∀ f : Field, decode (0x2000#16 ||| f.fid.setWidth 16) = .ok (.fldGet f)) ∧
  (∀ (f : Field) (s : State) (v : Nat), HoldsField (romF f) s.req.ins.l0 v →
    exec (.fldGet f) s = answered s ⟨.ok, ⟨toByte v, 0, 0, 0, 0, 0, 0, 0⟩, (romF f).reg, 1⟩) ∧
  (∀ (f : Field) (s : State), (¬ ∃ v, HoldsField (romF f) s.req.ins.l0 v) →
    exec (.fldGet f) s = failed s .decodeAnomaly ∧ (f.fid.toNat ≤ 10)) ∧
  (∀ s : State, opcOf s.req.cmd = 0x2 → 30 ≤ lowOf s.req.cmd → step s = failed s .illegalRequest)

/-- R185: FLD_PUT, for every one of the 30 fields: the value's code in the field's bits, every other bit of IN0 kept,
IN0 never checked. -/
def Obligations.FldPutResult : Prop :=
  (∀ f : Field, decode (0x3000#16 ||| f.fid.setWidth 16) = .ok (.fldPut f)) ∧
  (∀ (f : Field) (s : State), (romF f).lo.toNat ≤ s.req.ins.l1.toNat → s.req.ins.l1.toNat ≤ (romF f).hi.toNat →
    ∃ out, Inserts (romF f).mask s.req.ins.l0
        ((if (romF f).kind = .bcd then packed s.req.ins.l1.toNat else s.req.ins.l1) <<< (romF f).shift.toNat) out ∧
      exec (.fldPut f) s = answered s ⟨.ok, ⟨out, 0, 0, 0, 0, 0, 0, 0⟩, (romF f).reg, 1⟩) ∧
  (∀ (f : Field) (s : State), s.req.ins.l1.toNat < (romF f).lo.toNat ∨ (romF f).hi.toNat < s.req.ins.l1.toNat →
    exec (.fldPut f) s = failed s .invalidArgument) ∧
  (∀ s : State, opcOf s.req.cmd = 0x3 → 30 ≤ lowOf s.req.cmd → step s = failed s .illegalRequest)

/-- R186: FLG_ON, for every FLAG field: its bit takes the active value (1, or 0 for an active-low flag), every other
bit of IN0 is kept; a word with a non-FLAG FID or any other bad word is ILLEGAL_REQUEST. -/
def Obligations.FlgOnResult : Prop :=
  (∀ f : Field, 14 ≤ f.fid.toNat → decode (0x4000#16 ||| f.fid.setWidth 16) = .ok (.flgOn f)) ∧
  (∀ (f : Field) (s : State), 14 ≤ f.fid.toNat →
    ∃ out, (∀ i, i < 8 → out.getLsbD i =
        if i = (romF f).shift.toNat then decide ((romF f).pol = 0) else s.req.ins.l0.getLsbD i) ∧
      exec (.flgOn f) s = answered s ⟨.ok, ⟨out, 0, 0, 0, 0, 0, 0, 0⟩, (romF f).reg, 1⟩) ∧
  (∀ s : State, opcOf s.req.cmd = 0x4 → lowOf s.req.cmd ≤ 13 ∨ 30 ≤ lowOf s.req.cmd →
    step s = failed s .illegalRequest)

/-- R187: FLG_OFF, for every FLAG field: its bit takes the inactive value, every other bit of IN0 is kept. -/
def Obligations.FlgOffResult : Prop :=
  (∀ f : Field, 14 ≤ f.fid.toNat → decode (0x5000#16 ||| f.fid.setWidth 16) = .ok (.flgOff f)) ∧
  (∀ (f : Field) (s : State), 14 ≤ f.fid.toNat →
    ∃ out, (∀ i, i < 8 → out.getLsbD i =
        if i = (romF f).shift.toNat then decide ((romF f).pol = 1) else s.req.ins.l0.getLsbD i) ∧
      exec (.flgOff f) s = answered s ⟨.ok, ⟨out, 0, 0, 0, 0, 0, 0, 0⟩, (romF f).reg, 1⟩) ∧
  (∀ s : State, opcOf s.req.cmd = 0x5 → lowOf s.req.cmd ≤ 13 ∨ 30 ≤ lowOf s.req.cmd →
    step s = failed s .illegalRequest)

/-- R188: FLG_TEST, for every FLAG field: 1 exactly when the flag's bit has its active value. It never fails on data. -/
def Obligations.FlgTestResult : Prop :=
  (∀ f : Field, 14 ≤ f.fid.toNat → decode (0x6000#16 ||| f.fid.setWidth 16) = .ok (.flgTest f)) ∧
  (∀ (f : Field) (s : State), 14 ≤ f.fid.toNat →
    exec (.flgTest f) s = answered s
      ⟨.ok, ⟨if s.req.ins.l0.getLsbD (romF f).shift.toNat = decide ((romF f).pol = 0) then 1 else 0,
        0, 0, 0, 0, 0, 0, 0⟩, (romF f).reg, 1⟩) ∧
  (∀ s : State, opcOf s.req.cmd = 0x6 → lowOf s.req.cmd ≤ 13 ∨ 30 ≤ lowOf s.req.cmd →
    step s = failed s .illegalRequest)

/-- R191: whenever FLD_PUT, FLG_ON or FLG_OFF answers OK for field f, the byte changes only in f's bits. -/
def Obligations.SiblingBitsArePreserved : Prop :=
  ∀ (f : Field) (i : Instr) (s t : State), i ∈ [Instr.fldPut f, .flgOn f, .flgOff f] →
    exec i s = .next t → t.resp.status = .ok →
    t.resp.out.l0 &&& ~~~(romF f).mask = s.req.ins.l0 &&& ~~~(romF f).mask

/-- R192: FLD_GET and FLG_TEST give the same response for any two bytes that agree under the field's mask. -/
def Obligations.FieldDecodeSeesOnlyTheMask : Prop :=
  ∀ (f : Field) (i : Instr) (s s' t : State), i ∈ [Instr.fldGet f, .flgTest f] →
    s.req.ins.l0 &&& (romF f).mask = s'.req.ins.l0 &&& (romF f).mask →
    exec i s = .next t → exec i s' = answered s' t.resp

/-- R193: put then get gives the value back, test after on is 1 and after off is 0, and on and off are idempotent. -/
def Obligations.PutThenGet : Prop :=
  (∀ (f : Field) (s : State) (x v : Byte), (romF f).lo.toNat ≤ v.toNat → v.toNat ≤ (romF f).hi.toNat →
    ∃ b, AnswersByte (exec (.fldPut f) (s.withIns [x, v])) b ∧ AnswersByte (exec (.fldGet f) (s.withIns [b])) v) ∧
  (∀ (f : Field) (s : State) (x : Byte), 14 ≤ f.fid.toNat →
    ∃ b, AnswersByte (exec (.flgOn f) (s.withIns [x])) b ∧ AnswersByte (exec (.flgTest f) (s.withIns [b])) 1 ∧
      AnswersByte (exec (.flgOn f) (s.withIns [b])) b) ∧
  (∀ (f : Field) (s : State) (x : Byte), 14 ≤ f.fid.toNat →
    ∃ b, AnswersByte (exec (.flgOff f) (s.withIns [x])) b ∧ AnswersByte (exec (.flgTest f) (s.withIns [b])) 0 ∧
      AnswersByte (exec (.flgOff f) (s.withIns [b])) b)

/-- R181: fencode's last check never fires for the 30 fields: every legal value's bits lie inside the mask. -/
def Obligations.LegalValuesFitTheMask : Prop :=
  ∀ (f : Field) (v : Byte), (romF f).lo.toNat ≤ v.toNat → v.toNat ≤ (romF f).hi.toNat →
    ∃ bits, fencode (romF f) v = some bits ∧ bits &&& ~~~(romF f).mask = 0

/-! ### Datetime -/

/-- R220: DT_UNPACK. OUT7 is the raw century bit of IN5. -/
def Obligations.DtUnpackResult : Prop :=
  decode 0x7000#16 = .ok .dtUnpack ∧
  (∀ (st : State) (s mi h d w mo y : Nat), HoldsDatetime st.req.ins s mi h d w mo y →
    exec .dtUnpack st = answered st ⟨.ok, ⟨toByte s, toByte mi, toByte h, toByte d, toByte w, toByte mo, toByte y,
      if 128 ≤ st.req.ins.l5.toNat then 1 else 0⟩, 0x02, 7⟩) ∧
  (∀ st : State, (¬ ∃ s mi h d w mo y, HoldsDatetime st.req.ins s mi h d w mo y) →
    exec .dtUnpack st = failed st .decodeAnomaly) ∧
  (∀ st : State, opcOf st.req.cmd = 0x7 → lowOf st.req.cmd ≠ 0 → step st = failed st .illegalRequest)

/-- R221: DT_PACK. Fresh packing: VL, C and every don't-care bit 0; no lane is output when one is out of range. -/
def Obligations.DtPackResult : Prop :=
  decode 0x8000#16 = .ok .dtPack ∧
  (∀ st : State, DatetimeInRange st.req.ins.l0.toNat st.req.ins.l1.toNat st.req.ins.l2.toNat st.req.ins.l3.toNat
      st.req.ins.l4.toNat st.req.ins.l5.toNat st.req.ins.l6.toNat →
    exec .dtPack st = answered st ⟨.ok, ⟨packed st.req.ins.l0.toNat, packed st.req.ins.l1.toNat,
      packed st.req.ins.l2.toNat, packed st.req.ins.l3.toNat, st.req.ins.l4, packed st.req.ins.l5.toNat,
      packed st.req.ins.l6.toNat, 0⟩, 0x02, 7⟩) ∧
  (∀ st : State, ¬ DatetimeInRange st.req.ins.l0.toNat st.req.ins.l1.toNat st.req.ins.l2.toNat st.req.ins.l3.toNat
      st.req.ins.l4.toNat st.req.ins.l5.toNat st.req.ins.l6.toNat →
    exec .dtPack st = failed st .invalidArgument) ∧
  (∀ st : State, opcOf st.req.cmd = 0x8 → lowOf st.req.cmd ≠ 0 → step st = failed st .illegalRequest)

/-- R222: TM_PACK. Three bytes, RLEN 3. -/
def Obligations.TmPackResult : Prop :=
  decode 0x9000#16 = .ok .tmPack ∧
  (∀ st : State, TimeInRange st.req.ins.l0.toNat st.req.ins.l1.toNat st.req.ins.l2.toNat →
    exec .tmPack st = answered st ⟨.ok, ⟨packed st.req.ins.l0.toNat, packed st.req.ins.l1.toNat,
      packed st.req.ins.l2.toNat, 0, 0, 0, 0, 0⟩, 0x02, 3⟩) ∧
  (∀ st : State, ¬ TimeInRange st.req.ins.l0.toNat st.req.ins.l1.toNat st.req.ins.l2.toNat →
    exec .tmPack st = failed st .invalidArgument) ∧
  (∀ st : State, opcOf st.req.cmd = 0x9 → lowOf st.req.cmd ≠ 0 → step st = failed st .illegalRequest)

/-- R225: unpack of pack gives the datetime back with C = 0; TM_PACK's bytes are DT_PACK's; DT_UNPACK ignores every bit
outside the seven masks but IN5 bit 7. -/
def Obligations.DatetimeLaws : Prop :=
  (∀ (st : State) (s mi h d w mo y i7 j7 : Byte),
    DatetimeInRange s.toNat mi.toNat h.toNat d.toNat w.toNat mo.toNat y.toNat →
    ∃ t u, exec .dtPack (st.withIns [s, mi, h, d, w, mo, y, i7]) = .next t ∧
      exec .dtUnpack (st.withIns [t.resp.out.l0, t.resp.out.l1, t.resp.out.l2, t.resp.out.l3, t.resp.out.l4,
        t.resp.out.l5, t.resp.out.l6, j7]) = .next u ∧
      u.resp = ⟨.ok, ⟨s, mi, h, d, w, mo, y, 0⟩, 0x02, 7⟩) ∧
  (∀ (st st' t u : State), st.req.ins.l0 = st'.req.ins.l0 → st.req.ins.l1 = st'.req.ins.l1 →
    st.req.ins.l2 = st'.req.ins.l2 → exec .dtPack st = .next t → exec .tmPack st' = .next u → t.resp.status = .ok →
    u.resp.status = .ok ∧ u.resp.out.l0 = t.resp.out.l0 ∧ u.resp.out.l1 = t.resp.out.l1 ∧
      u.resp.out.l2 = t.resp.out.l2) ∧
  (∀ (st st' t : State),
    st.req.ins.l0 &&& 0x7F = st'.req.ins.l0 &&& 0x7F → st.req.ins.l1 &&& 0x7F = st'.req.ins.l1 &&& 0x7F →
    st.req.ins.l2 &&& 0x3F = st'.req.ins.l2 &&& 0x3F → st.req.ins.l3 &&& 0x3F = st'.req.ins.l3 &&& 0x3F →
    st.req.ins.l4 &&& 0x07 = st'.req.ins.l4 &&& 0x07 → st.req.ins.l5 &&& 0x9F = st'.req.ins.l5 &&& 0x9F →
    st.req.ins.l6 = st'.req.ins.l6 → exec .dtUnpack st = .next t → exec .dtUnpack st' = answered st' t.resp)

/-- R223: a full datetime write always has C = 0; FLD_PUT MONTHS keeps the century bit of the old byte; and on DT_PACK's
OUT5, FLD_PUT C, FLG_ON C and FLG_OFF C put the century in and keep the month. -/
def Obligations.CenturyResetByPackKeptByPut : Prop :=
  (∀ st t : State, exec .dtPack st = .next t → t.resp.out.l5 &&& 0x80 = 0) ∧
  (∀ st : State, 1 ≤ st.req.ins.l1.toNat → st.req.ins.l1.toNat ≤ 12 →
    ∃ t, exec (.fldPut .months) st = .next t ∧ t.resp.status = .ok ∧
      t.resp.out.l0 &&& 0x80 = st.req.ins.l0 &&& 0x80) ∧
  (∀ (st t : State) (c : CenturyWrite), exec .dtPack st = .next t → t.resp.status = .ok → centuryValue c ≤ 1 →
    AnswersByte (exec (centuryInstr c) (st.withIns (t.resp.out.l5 :: centuryOperands c)))
      (t.resp.out.l5 ||| centuryBits (centuryValue c)))

/-! ### Alarm -/

/-- R240: ALM_UNPACK. Every lane's value is checked, whatever its enable; an enable is 1 when the AE bit is 0. -/
def Obligations.AlmUnpackResult : Prop :=
  decode 0xA000#16 = .ok .almUnpack ∧
  (∀ (st : State) (m h d w : Nat), HoldsAlarm st.req.ins m h d w →
    exec .almUnpack st = answered st ⟨.ok, ⟨toByte m, toByte h, toByte d, toByte w,
      if 128 ≤ st.req.ins.l0.toNat then 0 else 1, if 128 ≤ st.req.ins.l1.toNat then 0 else 1,
      if 128 ≤ st.req.ins.l2.toNat then 0 else 1, if 128 ≤ st.req.ins.l3.toNat then 0 else 1⟩, 0x09, 4⟩) ∧
  (∀ st : State, (¬ ∃ m h d w, HoldsAlarm st.req.ins m h d w) → exec .almUnpack st = failed st .decodeAnomaly) ∧
  (∀ st : State, opcOf st.req.cmd = 0xA → lowOf st.req.cmd ≠ 0 → step st = failed st .illegalRequest)

/-- R241: ALM_PACK. Every AE bit from the explicit enables; a disabled lane's value is checked too. -/
def Obligations.AlmPackResult : Prop :=
  decode 0xB000#16 = .ok .almPack ∧
  (∀ st : State,
    AlarmInRange st.req.ins.l0.toNat st.req.ins.l1.toNat st.req.ins.l2.toNat st.req.ins.l3.toNat →
    st.req.ins.l4.toNat ≤ 1 ∧ st.req.ins.l5.toNat ≤ 1 ∧ st.req.ins.l6.toNat ≤ 1 ∧ st.req.ins.l7.toNat ≤ 1 →
    exec .almPack st = answered st ⟨.ok,
      ⟨packed st.req.ins.l0.toNat ||| aeBits st.req.ins.l4.toNat, packed st.req.ins.l1.toNat ||| aeBits st.req.ins.l5.toNat,
       packed st.req.ins.l2.toNat ||| aeBits st.req.ins.l6.toNat, st.req.ins.l3 ||| aeBits st.req.ins.l7.toNat,
       0, 0, 0, 0⟩, 0x09, 4⟩) ∧
  (∀ st : State,
    ¬ AlarmInRange st.req.ins.l0.toNat st.req.ins.l1.toNat st.req.ins.l2.toNat st.req.ins.l3.toNat ∨
      1 < st.req.ins.l4.toNat ∨ 1 < st.req.ins.l5.toNat ∨ 1 < st.req.ins.l6.toNat ∨ 1 < st.req.ins.l7.toNat →
    exec .almPack st = failed st .invalidArgument) ∧
  (∀ st : State, opcOf st.req.cmd = 0xB → lowOf st.req.cmd ≠ 0 → step st = failed st .illegalRequest)

/-- R244: ALM_UNPACK of ALM_PACK's OUT0..OUT3 gives the values and enables back. -/
def Obligations.AlarmRoundTrip : Prop :=
  ∀ (st : State) (m h d w e0 e1 e2 e3 : Byte), AlarmInRange m.toNat h.toNat d.toNat w.toNat →
    e0.toNat ≤ 1 → e1.toNat ≤ 1 → e2.toNat ≤ 1 → e3.toNat ≤ 1 →
    ∃ t u, exec .almPack (st.withIns [m, h, d, w, e0, e1, e2, e3]) = .next t ∧
      exec .almUnpack (st.withIns [t.resp.out.l0, t.resp.out.l1, t.resp.out.l2, t.resp.out.l3]) = .next u ∧
      u.resp = ⟨.ok, ⟨m, h, d, w, e0, e1, e2, e3⟩, 0x09, 4⟩

/-- R242: on an alarm register's old byte, a value-only put keeps the AE bit, and an enable-only on or off keeps the
other seven bits and sets the AE bit to 0 or 1. -/
def Obligations.AlarmValueAndEnableAreIndependent : Prop :=
  ∀ (p : AlarmPart) (st t : State), t.resp.status = .ok →
    (exec (.fldPut (alarmValueField p)) st = .next t →
      t.resp.out.l0 &&& 0x80 = st.req.ins.l0 &&& 0x80) ∧
    (exec (.flgOn (alarmEnableField p)) st = .next t → t.resp.out.l0 = st.req.ins.l0 &&& 0x7F) ∧
    (exec (.flgOff (alarmEnableField p)) st = .next t → t.resp.out.l0 = st.req.ins.l0 ||| 0x80)

/-! ### Register map -/

/-- R153 with the field summary of 40_register_map.md: MAP_FIELD answers the row of its FID, for all 30. -/
def Obligations.MapFieldResult : Prop :=
  (∀ f : Field, decode (0xC000#16 ||| f.fid.setWidth 16) = .ok (.mapField f)) ∧
  (∀ (f : Field) (s : State), ∃ row : List Byte,
    ([[0x02, 0x7F, 0, 0, 0, 59, 0], [0x03, 0x7F, 0, 0, 0, 59, 0], [0x04, 0x3F, 0, 0, 0, 23, 0],
      [0x05, 0x3F, 0, 0, 1, 31, 0], [0x06, 0x07, 0, 1, 0, 6, 0], [0x07, 0x1F, 0, 0, 1, 12, 0],
      [0x08, 0xFF, 0, 0, 0, 99, 0], [0x09, 0x7F, 0, 0, 0, 59, 0], [0x0A, 0x3F, 0, 0, 0, 23, 0],
      [0x0B, 0x3F, 0, 0, 1, 31, 0], [0x0C, 0x07, 0, 1, 0, 6, 0], [0x0F, 0xFF, 0, 1, 0, 255, 0],
      [0x0E, 0x03, 0, 2, 0, 3, 0], [0x0D, 0x03, 0, 2, 0, 3, 0], [0x02, 0x80, 7, 3, 0, 1, 0],
      [0x07, 0x80, 7, 3, 0, 1, 0], [0x09, 0x80, 7, 3, 0, 1, 1], [0x0A, 0x80, 7, 3, 0, 1, 1],
      [0x0B, 0x80, 7, 3, 0, 1, 1], [0x0C, 0x80, 7, 3, 0, 1, 1], [0x00, 0x80, 7, 3, 0, 1, 0],
      [0x00, 0x20, 5, 3, 0, 1, 0], [0x00, 0x08, 3, 3, 0, 1, 0], [0x01, 0x10, 4, 3, 0, 1, 0],
      [0x01, 0x08, 3, 3, 0, 1, 0], [0x01, 0x04, 2, 3, 0, 1, 0], [0x01, 0x02, 1, 3, 0, 1, 0],
      [0x01, 0x01, 0, 3, 0, 1, 0], [0x0E, 0x80, 7, 3, 0, 1, 0], [0x0D, 0x80, 7, 3, 0, 1, 0]] :
        List (List Byte))[f.fid.toNat]? = some row ∧
    exec (.mapField f) s = answered s ⟨.ok, lanesOf row, 0, 0⟩) ∧
  (∀ s : State, opcOf s.req.cmd = 0xC → 30 ≤ lowOf s.req.cmd → step s = failed s .illegalRequest)

/-- R154 with the register summary R119: MAP_REG answers the row of address IN0, and an address above 0x0F is invalid. -/
def Obligations.MapRegResult : Prop :=
  decode 0xD000#16 = .ok .mapReg ∧
  (∀ s : State, s.req.ins.l0.toNat ≤ 0x0F → ∃ row : List Byte,
    ([[0xA8, 0x00, 0x57, 3], [0x1F, 0x00, 0xE0, 5], [0xFF, 0x00, 0x00, 2], [0x7F, 0x80, 0x00, 1],
      [0x3F, 0xC0, 0x00, 1], [0x3F, 0xC0, 0x00, 1], [0x07, 0xF8, 0x00, 1], [0x9F, 0x60, 0x00, 2],
      [0xFF, 0x00, 0x00, 1], [0xFF, 0x00, 0x00, 2], [0xBF, 0x40, 0x00, 2], [0xBF, 0x40, 0x00, 2],
      [0x87, 0x78, 0x00, 2], [0x83, 0x7C, 0x00, 2], [0x83, 0x7C, 0x00, 2], [0xFF, 0x00, 0x00, 1]] :
        List (List Byte))[s.req.ins.l0.toNat]? = some row ∧
    exec .mapReg s = answered s ⟨.ok, lanesOf row, 0, 0⟩) ∧
  (∀ s : State, 0x0F < s.req.ins.l0.toNat → exec .mapReg s = failed s .invalidArgument) ∧
  (∀ s : State, opcOf s.req.cmd = 0xD → lowOf s.req.cmd ≠ 0 → step s = failed s .illegalRequest)

/-- R155: MAP_DEV answers the ROM constants in every request. -/
def Obligations.MapDevResult : Prop :=
  decode 0xE000#16 = .ok .mapDev ∧
  (∀ s : State, exec .mapDev s = answered s ⟨.ok, ⟨0x51, 16, 30, 0, 0, 0, 0, 0⟩, 0, 0⟩) ∧
  (∀ s : State, opcOf s.req.cmd = 0xE → lowOf s.req.cmd ≠ 0 → step s = failed s .illegalRequest)

/-- R118: in every register used, dc and mbz are disjoint and cover the byte, used is the OR of the field masks, those
masks are disjoint, and nfields counts them. -/
def Obligations.RegisterBitsArePartitioned : Prop :=
  ∀ a : Byte, a.toNat ≤ 0x0F → ∃ r, romR a = some r ∧
    r.used &&& r.dc = 0 ∧ r.used &&& r.mbz = 0 ∧ r.dc &&& r.mbz = 0 ∧ r.used ||| r.dc ||| r.mbz = 0xFF ∧
    (let masks := (fieldsByFid.filter fun f => decide ((romF f).reg = a)).map fun f => (romF f).mask
     masks.foldr (· ||| ·) 0 = r.used ∧ masks.Pairwise (fun x y => x &&& y = 0) ∧ masks.length = r.nfields.toNat)

/-! ### Host programs on the fixture (R31, R79, R333, R334, R338) -/

/-- The pseudo-instructions' command words, from the table of R79 and the FIDs of R121 to R150. -/
def Obligations.PseudoInstructionWords : Prop :=
  [Pseudo.clkRun, .clkStop, .tmrOn, .tmrOff, .aieOn, .aieOff, .tieOn, .tieOff, .clkoutOn, .clkoutOff,
   .almEn .minute, .almEn .hour, .almEn .day, .almEn .weekday, .almDis .minute, .almDis .hour, .almDis .day,
   .almDis .weekday, .afClr, .tfClr, .vlGet, .afGet, .tfGet, .tmrFreq, .tmrVal].map (fun p => encode (expandPseudo p)) =
  [0x5015, 0x4015, 0x401C, 0x501C, 0x401A, 0x501A, 0x401B, 0x501B, 0x401D, 0x501D,
   0x4010, 0x4011, 0x4012, 0x4013, 0x5010, 0x5011, 0x5012,
   0x5013, 0x5018, 0x5019, 0x600E, 0x6018, 0x6019, 0x300C, 0x300B]

/-- R338: after any request the host's write-back succeeds; on an error it changes no register, and a host that writes
RLEN bytes without looking at STATUS changes none either; on OK register RADDR + k takes OUT[k] for k below RLEN, and
every other register is unchanged. -/
def Obligations.WriteBackOnlyOnOk : Prop :=
  ∀ (b : Bench) (q : Request), ∃ b' b'', b.request q = some b' ∧
    b'.reg = b.reg ∧ b'.schedule = b.schedule ∧
    b'.commit = some b'' ∧ b''.block = b'.block ∧ b''.schedule = b'.schedule ∧
    (b'.block.resp.status ≠ .ok → b'' = b' ∧
      b'.wr b'.block.resp.raddr.toNat (b'.block.resp.out.toList.take b'.block.resp.rlen.toNat) = some b') ∧
    (b'.block.resp.status = .ok → ∀ a : Fin 16, b''.reg[a] =
      if b'.block.resp.raddr.toNat ≤ a.val ∧ a.val < b'.block.resp.raddr.toNat + b'.block.resp.rlen.toNat
      then b'.block.resp.out.toList.getD (a.val - b'.block.resp.raddr.toNat) 0 else b'.reg[a])

/-- R222, E9: set_time writes seconds, minutes and hours and leaves every other register unchanged; out of range it
writes nothing. -/
def Obligations.SetTimeLeavesTheDate : Prop :=
  ∀ (b : Bench) (s mi h : Byte), ∃ b', b.setTime s mi h = some b' ∧ b'.schedule = b.schedule ∧
    (TimeInRange s.toNat mi.toNat h.toNat → b'.block.resp.status = .ok ∧ ∀ a : Fin 16, b'.reg[a] =
      if a.val = 2 then packed s.toNat else if a.val = 3 then packed mi.toNat
      else if a.val = 4 then packed h.toNat else b.reg[a]) ∧
    (¬ TimeInRange s.toNat mi.toNat h.toNat → b'.block.resp.status = .invalidArgument ∧ b'.reg = b.reg)

/-- E8: set_datetime then get_datetime returns the same values, on the fixture with no elapsed time. -/
def Obligations.SetThenGetDatetime : Prop :=
  ∀ (b : Bench) (s mi h d w mo y : Byte), b.schedule = [] →
    DatetimeInRange s.toNat mi.toNat h.toNat d.toNat w.toNat mo.toNat y.toNat →
    ∃ b' b'', b.setDatetime s mi h d w mo y = some b' ∧ b'.getDatetime = some b'' ∧
      b''.block.resp = ⟨.ok, ⟨s, mi, h, d, w, mo, y, 0⟩, 0x02, 7⟩ ∧ b''.reg = b'.reg ∧
      ∀ a : Fin 16, a.val < 2 ∨ 8 < a.val → b'.reg[a] = b.reg[a]

/-- R333: init writes 0 to control/status 1 and 2 and 0x03 to timer control, from any register contents, and touches
no other register. -/
def Obligations.InitWritesThreeRegisters : Prop :=
  ∀ b : Bench, ∃ b', b.init = some b' ∧ b'.schedule = b.schedule ∧ ∀ a : Fin 16, b'.reg[a] =
    if a.val ≤ 1 then 0x00 else if a.val = 0x0E then 0x03 else b.reg[a]

/-- R334: get_datetime reads once more exactly when the first read decodes to seconds 59, and never a third time: with
two reads of seven bytes before the schedule's first event, no event has happened. -/
def Obligations.TornReadIsRetriedOnce : Prop :=
  ∀ b b₁ : Bench, b.readThenIssue .dtUnpack 0x02 7 [] = some b₁ →
    (b₁.block.resp.status = .ok ∧ b₁.block.resp.out.l0 = 59 →
      b.getDatetime = b₁.readThenIssue .dtUnpack 0x02 7 []) ∧
    (¬ (b₁.block.resp.status = .ok ∧ b₁.block.resp.out.l0 = 59) → b.getDatetime = some b₁) ∧
    ((∀ e ∈ b.schedule, 14 < e.after) → ∃ b₂, b.getDatetime = some b₂ ∧ b₂.reg = b.reg ∧
      b₂.block.resp = b₁.block.resp)

/-- R243: a value-only or enable-only read-modify-write of one alarm component changes no register but that
component's own. -/
def Obligations.AlarmComponentsAreIndependent : Prop :=
  ∀ (p : AlarmPart) (b : Bench) (v : Byte) (on : Bool), b.schedule = [] →
    ∃ b₁ b₂, b.setField (alarmValueField p) v = some b₁ ∧ b.setFlag (alarmEnableField p) on = some b₂ ∧
      (romF (alarmValueField p)).reg = (romF (alarmEnableField p)).reg ∧
      ∀ a : Fin 16, a.val ≠ (romF (alarmValueField p)).reg.toNat → b₁.reg[a] = b.reg[a] ∧ b₂.reg[a] = b.reg[a]

/-- 93 I18: no host sequence of the facade ever sets a must-be-zero bit: the block passes such bits through and
creates none. Every sequence of Facade.lean is one of `Sequence`. -/
def Obligations.FacadeNeverSetsMustBeZeroBits : Prop :=
  ∀ (q : Sequence) (b b' : Bench), b.schedule = [] → MbzClear b.reg → b.runSequence q = some b' → MbzClear b'.reg

/-- R223's second way on the fixture: set_datetime with the century put into OUT5 before the write, whatever the
registers and the schedule; an out-of-range datetime or a century above 1 writes nothing. -/
def Obligations.CenturyIsWrittenWithTheDatetime : Prop :=
  ∀ (b : Bench) (s mi h d w mo y : Byte) (c : CenturyWrite),
    ∃ b', b.setDatetimeWithCentury s mi h d w mo y c = some b' ∧ b'.schedule = b.schedule ∧
      (DatetimeInRange s.toNat mi.toNat h.toNat d.toNat w.toNat mo.toNat y.toNat → centuryValue c ≤ 1 →
        b'.block.resp.status = .ok ∧ ∀ a : Fin 16, b'.reg[a] =
          if a.val = 2 then packed s.toNat else if a.val = 3 then packed mi.toNat
          else if a.val = 4 then packed h.toNat else if a.val = 5 then packed d.toNat
          else if a.val = 6 then w else if a.val = 7 then packed mo.toNat ||| centuryBits (centuryValue c)
          else if a.val = 8 then packed y.toNat else b.reg[a]) ∧
      (¬ (DatetimeInRange s.toNat mi.toNat h.toNat d.toNat w.toNat mo.toNat y.toNat ∧ centuryValue c ≤ 1) →
        b'.block.resp.status = .invalidArgument ∧ b'.reg = b.reg)

/-- R223, R336: both ways to keep the century keep it. A month rewritten by RMW keeps bit 7 of register 0x07, and so
does a full datetime write that reads register 0x07 first and re-inserts C. -/
def Obligations.CenturyIsKeptByBothWays : Prop :=
  (∀ (b : Bench) (mo : Byte), b.schedule = [] → 1 ≤ mo.toNat → mo.toNat ≤ 12 →
    ∃ b', b.setField .months mo = some b' ∧ b'.reg[7] = (b.reg[7] &&& 0xE0) ||| packed mo.toNat ∧
      ∀ a : Fin 16, a.val ≠ 7 → b'.reg[a] = b.reg[a]) ∧
  (∀ (b : Bench) (s mi h d w mo y : Byte), b.schedule = [] →
    DatetimeInRange s.toNat mi.toNat h.toNat d.toNat w.toNat mo.toNat y.toNat →
    ∃ b', b.setDatetimeKeepingCentury s mi h d w mo y = some b' ∧
      b'.reg[7] = packed mo.toNat ||| (b.reg[7] &&& 0x80))

/-- The model's choice of log entry 7, no rule of the spec: the ill-formed terms, FLG_ON, FLG_OFF and FLG_TEST of a
non-FLAG field, which no word decodes to, answer ILLEGAL_REQUEST. -/
def Obligations.IllFormedFlagTermsAreIllegalRequests : Prop :=
  ∀ (f : Field) (i : Instr) (s : State), f.fid.toNat ≤ 13 → i ∈ [Instr.flgOn f, .flgOff f, .flgTest f] →
    (∀ w : Word, decode w ≠ .ok i) ∧ exec i s = failed s .illegalRequest

/-- R78, R79: the assembler accepts every operation under its mnemonic and every single-request alias under its name,
with FIELD present exactly when one is taken; the request holds the word and the listed bytes. That a FLAG-only
operation assembles with a non-FLAG name, and the bound of eight bytes, are the model's choices (log entry 8). -/
def Obligations.AssemblerAcceptsMnemonicsAndAliases : Prop :=
  (∀ (i : Instr) (ins : List Byte), ins.length ≤ 8 →
    assemble (mnemonicOf i) (i.field?.map fieldName) ins = some ⟨encode i, lanesOf ins⟩) ∧
  (∀ (p : Pseudo) (ins : List Byte), ins.length ≤ 8 →
    assemble (pseudoName p) ((pseudoField p).map fieldName) ins = some ⟨encode (expandPseudo p), lanesOf ins⟩) ∧
  (∀ (i : Instr) (ins : List Byte), i.field? ≠ none → assemble (mnemonicOf i) none ins = none) ∧
  (∀ (i : Instr) (name : String) (ins : List Byte), i.field? = none → assemble (mnemonicOf i) (some name) ins = none)
end

