-- ==== Sys2Proof/Laws/Decode.lean ====
section
/-! SUPPORT. The field numbering is one to one, and what each of the decoder's three operand checks accepts. -/

namespace Sys2Proof

@[simp] theorem fieldOfFid_fid (f : Field) : fieldOfFid f.fid = some f := by cases f <;> rfl

theorem fid_lt (f : Field) : f.fid.toNat < 30 := by cases f <;> decide

theorem fid_of_fieldOfFid {n : BitVec 5} {f : Field} (h : fieldOfFid n = some f) : f.fid = n := by
  revert h
  revert n
  cases f <;> decide

theorem fieldOfFid_none_iff (n : BitVec 5) : fieldOfFid n = none ↔ 30 ≤ n.toNat := by
  revert n
  decide

/-- The FLAG fields are FID 14..29 (30_encoding.md R75). -/
theorem isFlag_iff (f : Field) : Machine.isFlag f = true ↔ 14 ≤ f.fid.toNat := by cases f <;> decide

theorem takeNoField_ok {fid : BitVec 5} {i j : Instr} (h : takeNoField fid i = .ok j) : fid = 0 ∧ j = i := by
  unfold takeNoField at h
  split at h
  · next hf => cases h; exact ⟨hf, rfl⟩
  · cases h

theorem takeField_ok {fid : BitVec 5} {mk : Field → Instr} {j : Instr} (h : takeField fid mk = .ok j) :
    ∃ f, f.fid = fid ∧ j = mk f := by
  unfold takeField at h
  split at h
  · next f hf => cases h; exact ⟨f, fid_of_fieldOfFid hf, rfl⟩
  · cases h

theorem takeFlag_ok {fid : BitVec 5} {mk : Field → Instr} {j : Instr} (h : takeFlag fid mk = .ok j) :
    ∃ f, f.fid = fid ∧ Machine.isFlag f = true ∧ j = mk f := by
  unfold takeFlag at h
  split at h
  · next f hf =>
    split at h
    · next hk => cases h; exact ⟨f, fid_of_fieldOfFid hf, hk, rfl⟩
    · cases h
  · cases h

theorem takeNoField_zero (i : Instr) : takeNoField 0 i = .ok i := rfl

theorem takeField_fid (f : Field) (mk : Field → Instr) : takeField f.fid mk = .ok (mk f) := by
  simp [takeField]

theorem takeFlag_fid (f : Field) (mk : Field → Instr) (h : Machine.isFlag f = true) :
    takeFlag f.fid mk = .ok (mk f) := by
  simp [takeFlag, h]

end Sys2Proof
end

