-- ==== Sys2Proof/Laws/Operands.lean ====
section
/-! SUPPORT. The shared helpers, one fact each: digits, masking, range, insertion, and lanes. -/

namespace Sys2Proof.Machine

theorem bcdOk_dec2bcd {d : Nat} (h : d ≤ 99) : bcdOk (dec2bcd d) = true ∧ bcd2dec (dec2bcd d) = d := by
  revert d
  decide

theorem dec2bcd_bcd2dec {v : Byte} (h : bcdOk v = true) : bcd2dec v ≤ 99 ∧ dec2bcd (bcd2dec v) = v := by
  revert v
  decide +revert

/-- Decoding sees the field's own bits only (42_field_ops.md R180: the mask comes first). -/
theorem fdecode_congr {d : FieldDesc} {x y : Byte} (h : x &&& d.mask = y &&& d.mask) : fdecode d x = fdecode d y := by
  have hr : fieldRaw d x = fieldRaw d y := by simp only [fieldRaw, h]
  unfold fdecode
  rw [hr]

theorem active_congr {d : FieldDesc} {x y : Byte} (h : x &&& d.mask = y &&& d.mask) : active d x = active d y := by
  simp only [active, fieldRaw, h]

/-- What `fencode` gives: a value in range, its code in register position, inside the mask (R181). -/
theorem fencode_some {d : FieldDesc} {v b : Byte} (h : fencode d v = some b) :
    inRange d v = true ∧ b = fieldBits d v ∧ b &&& ~~~d.mask = 0 := by
  simp only [fencode] at h
  split at h
  · next hr =>
    split at h
    · cases h
    · next hm =>
      cases h
      exact ⟨hr, rfl, by simpa using hm⟩
  · cases h

/-- Insertion keeps every bit outside the mask (R182). -/
theorem finsert_outside (d : FieldDesc) (old bits : Byte) (h : bits &&& ~~~d.mask = 0) :
    finsert d old bits &&& ~~~d.mask = old &&& ~~~d.mask := by
  have hb : ∀ i, i < 8 → (bits.getLsbD i && !d.mask.getLsbD i) = false := fun i hi => by
    have := congrArg (fun z : Byte => z.getLsbD i) h
    simpa [hi] using this
  apply BitVec.eq_of_getLsbD_eq
  intro i hi
  have := hb i hi
  simp only [finsert, BitVec.getLsbD_and, BitVec.getLsbD_or, BitVec.getLsbD_not, hi, decide_true, Bool.true_and]
  revert this
  cases bits.getLsbD i <;> cases d.mask.getLsbD i <;> cases old.getLsbD i <;> simp

/-- Insertion puts exactly the new bits inside the mask (R182). -/
theorem finsert_inside (d : FieldDesc) (old bits : Byte) (h : bits &&& ~~~d.mask = 0) :
    finsert d old bits &&& d.mask = bits := by
  have hb : ∀ i, i < 8 → (bits.getLsbD i && !d.mask.getLsbD i) = false := fun i hi => by
    have := congrArg (fun z : Byte => z.getLsbD i) h
    simpa [hi] using this
  apply BitVec.eq_of_getLsbD_eq
  intro i hi
  have := hb i hi
  simp only [finsert, BitVec.getLsbD_and, BitVec.getLsbD_or, BitVec.getLsbD_not, hi, decide_true, Bool.true_and]
  revert this
  cases bits.getLsbD i <;> cases d.mask.getLsbD i <;> cases old.getLsbD i <;> simp

theorem decodeLanes_cons_some {f : Field} {x : Byte} {rest : List (Field × Byte)} {out : List Byte}
    (h : decodeLanes ((f, x) :: rest) = some out) :
    ∃ v vs, fdecode (romF f) x = some v ∧ decodeLanes rest = some vs ∧ out = v :: vs := by
  simp only [decodeLanes] at h
  split at h
  · next v vs hv hvs => cases h; exact ⟨v, vs, hv, hvs, rfl⟩
  · cases h

theorem encodeLanes_cons_some {f : Field} {x : Byte} {rest : List (Field × Byte)} {out : List Byte}
    (h : encodeLanes ((f, x) :: rest) = some out) :
    ∃ b bs, fencode (romF f) x = some b ∧ encodeLanes rest = some bs ∧ out = b :: bs := by
  simp only [encodeLanes] at h
  split at h
  · next b bs hb hbs => cases h; exact ⟨b, bs, hb, hbs, rfl⟩
  · cases h

end Sys2Proof.Machine
end

