-- ==== Sys2Proof/Laws/State.lean ====
section
/-! SUPPORT. The small lemmas of State: what each update leaves in each field, and the reset state's fields. -/

namespace Sys2Proof.Machine

@[simp] theorem respond_req (s : State) (r : Response) : (s.respond r).req = s.req := rfl
@[simp] theorem respond_resp (s : State) (r : Response) : (s.respond r).resp = r := rfl
@[simp] theorem present_req (s : State) (q : Request) : (s.present q).req = q := rfl
@[simp] theorem present_resp (s : State) (q : Request) : (s.present q).resp = s.resp := rfl
@[simp] theorem driveCmd_cmd (s : State) (w : Word) : (s.driveCmd w).req.cmd = w := rfl
@[simp] theorem driveCmd_ins (s : State) (w : Word) : (s.driveCmd w).req.ins = s.req.ins := rfl
@[simp] theorem driveCmd_resp (s : State) (w : Word) : (s.driveCmd w).resp = s.resp := rfl
@[simp] theorem cmdWord_eq (s : State) : s.cmdWord = s.req.cmd := rfl
@[simp] theorem cmdWord_respond (s : State) (r : Response) : (s.respond r).cmdWord = s.cmdWord := rfl
@[simp] theorem respond_respond (s : State) (r r' : Response) : (s.respond r).respond r' = s.respond r' := rfl
@[simp] theorem inByte_respond (s : State) (r : Response) (k : Fin 8) : (s.respond r).inByte k = s.inByte k := rfl

@[simp] theorem withFetchWord_cmd (s : State) (nbits w : Nat) :
    (s.withFetchWord nbits w).req.cmd = cmdOfTableWord nbits w := rfl
@[simp] theorem withFetchWord_ins (s : State) (nbits w : Nat) : (s.withFetchWord nbits w).req.ins = s.req.ins := rfl
@[simp] theorem withFetchWord_resp (s : State) (nbits w : Nat) : (s.withFetchWord nbits w).resp = s.resp := rfl

@[simp] theorem inByte_0 (s : State) : s.inByte 0 = s.req.ins.l0 := rfl
@[simp] theorem inByte_1 (s : State) : s.inByte 1 = s.req.ins.l1 := rfl
@[simp] theorem inByte_2 (s : State) : s.inByte 2 = s.req.ins.l2 := rfl
@[simp] theorem inByte_3 (s : State) : s.inByte 3 = s.req.ins.l3 := rfl
@[simp] theorem inByte_4 (s : State) : s.inByte 4 = s.req.ins.l4 := rfl
@[simp] theorem inByte_5 (s : State) : s.inByte 5 = s.req.ins.l5 := rfl
@[simp] theorem inByte_6 (s : State) : s.inByte 6 = s.req.ins.l6 := rfl
@[simp] theorem inByte_7 (s : State) : s.inByte 7 = s.req.ins.l7 := rfl

@[simp] theorem reset_cmd : State.reset.req.cmd = 0 := rfl
@[simp] theorem reset_resp : State.reset.resp = outReset := rfl

end Sys2Proof.Machine
end

