-- ==== Sys2Proof/Laws/Ops.lean ====
section
/-! SUPPORT. What the shared ends of a request do, said once: `finishOk` and `raiseCause` always answer, change the
response ports alone, and leave them coherent. -/

namespace Sys2Proof.Machine

theorem finishOk_answered (s : State) (bytes : List Byte) (raddr : Byte) (rlen : BitVec 4) :
    finishOk s bytes raddr rlen = answered s ⟨.ok, lanesOf bytes, raddr, rlen⟩ := rfl

theorem raiseCause_failed (s : State) (e : Cause) : raiseCause s e = failed s (causeStatus e) := rfl

theorem causeStatus_ne_ok (e : Cause) : causeStatus e ≠ .ok := by cases e <;> simp [causeStatus]

theorem errorResponse_coherent (e : Cause) : (errorResponse e).Coherent := by
  constructor <;> simp [errorResponse, Lanes.zero]

theorem okResponse_coherent (bytes : List Byte) (raddr : Byte) (rlen : BitVec 4) (hle : rlen.toNat ≤ 7)
    (hzero : rlen = 0 → raddr = 0) (hreg : raddr.toNat + rlen.toNat ≤ 16) :
    (okResponse bytes raddr rlen).Coherent :=
  ⟨hle, hzero, hreg, fun h => absurd rfl h⟩

@[simp] theorem lanesOf_l0 (l : List Byte) : (lanesOf l).l0 = l.getD 0 0 := rfl
@[simp] theorem lanesOf_l1 (l : List Byte) : (lanesOf l).l1 = l.getD 1 0 := rfl
@[simp] theorem lanesOf_l2 (l : List Byte) : (lanesOf l).l2 = l.getD 2 0 := rfl
@[simp] theorem lanesOf_l3 (l : List Byte) : (lanesOf l).l3 = l.getD 3 0 := rfl
@[simp] theorem lanesOf_l4 (l : List Byte) : (lanesOf l).l4 = l.getD 4 0 := rfl
@[simp] theorem lanesOf_l5 (l : List Byte) : (lanesOf l).l5 = l.getD 5 0 := rfl
@[simp] theorem lanesOf_l6 (l : List Byte) : (lanesOf l).l6 = l.getD 6 0 := rfl
@[simp] theorem lanesOf_l7 (l : List Byte) : (lanesOf l).l7 = l.getD 7 0 := rfl

theorem lanesOf_toList (l : Lanes) : lanesOf l.toList = l := rfl

end Sys2Proof.Machine
end

