-- ==== Sys2Proof/Laws/Exec.lean ====
section
/-! SUPPORT. What any operation can do, said once: it answers, its answer depends on the IN lanes alone, and it changes
the response ports alone. Citing these, no later proof unfolds all fifteen meanings. -/

namespace Sys2Proof.Machine

/-- The response an outcome holds; OUT_RESET for an outcome that holds none (which no operation gives). -/
def respOf (o : Host.Outcome State Fault Refusal) : Response :=
  match o with
  | .next t => t.resp
  | .fault _ => outReset
  | .refused _ => outReset

@[simp] theorem respOf_answered (s : State) (r : Response) : respOf (answered s r) = r := rfl

/-- Each operation answers, with a response that is a function of the IN lanes. -/
theorem exec_answered (i : Instr) (s : State) :
    exec i s = answered s (respOf (exec i ⟨⟨0, s.req.ins⟩, outReset⟩)) := by
  cases i <;> simp only [exec, execBcdDec, execBcdEnc, execFldGet, execFldPut, execFlgOn, execFlgOff, execFlgTest,
      execDtUnpack, execDtPack, execTmPack, execAlmUnpack, execAlmPack, execMapField, execMapReg, execMapDev,
      datetimeLanes, timeLanes, alarmLanes, alarmEnables, finishOk_answered, raiseCause_failed, failed, respOf_answered] <;>
    (repeat' split) <;> simp_all

/-- No operation stops, and none changes a port but the response's. -/
theorem exec_next (i : Instr) (s : State) : ∃ r, exec i s = .next (s.respond r) := ⟨_, exec_answered i s⟩

/-- Two states with the same IN lanes get the same response. -/
theorem exec_congr (i : Instr) {s s' : State} (h : s.req.ins = s'.req.ins) {r : Response}
    (hr : exec i s = answered s r) : exec i s' = answered s' r := by
  have hs := exec_answered i s
  rw [hr] at hs
  simp only [answered, Host.Outcome.next.injEq, State.mk.injEq, true_and] at hs
  rw [exec_answered i s', ← h, ← hs]

end Sys2Proof.Machine
end

