-- ==== Sys2Proof/Laws/Fixture.lean ====
section
/-! SUPPORT. What the host's two bus transactions do on the fixture (00_scope.md R12, 10_state.md R31), said once. -/

namespace Sys2Proof.Machine

/-- `WR` inside the register file succeeds, sets `REG[a+k]` to byte k, and leaves every other register unchanged. -/
theorem writeRegs_spec (l : List Byte) : ∀ (reg : Vector Byte 16) (a : Nat), a + l.length ≤ 16 →
    ∃ reg', writeRegs reg a l = some reg' ∧ ∀ k : Fin 16, reg'[k] =
      if a ≤ k.val ∧ k.val < a + l.length then l.getD (k.val - a) 0 else reg[k] := by
  induction l with
  | nil =>
    intro reg a _
    refine ⟨reg, rfl, fun k => ?_⟩
    rw [if_neg (by simp)]
  | cons x xs ih =>
    intro reg a h
    simp only [List.length_cons] at h ⊢
    have ha : a < 16 := by omega
    obtain ⟨reg', h1, h2⟩ := ih (reg.set a x ha) (a + 1) (by omega)
    refine ⟨reg', by simp only [writeRegs, writeReg, ha, dif_pos]; exact h1, fun k => ?_⟩
    rw [h2 k]
    by_cases hk : a = k.val
    · subst hk
      simp
    · by_cases h3 : a + 1 ≤ k.val ∧ k.val < a + 1 + xs.length
      · have hs : k.val - a = (k.val - (a + 1)) + 1 := by omega
        rw [if_pos h3, if_pos (by omega), hs]
        simp
      · rw [if_neg h3, if_neg (by omega)]
        simp [hk]

/-- Reading one byte when no event is due leaves the registers unchanged and brings the events one byte nearer. -/
theorem afterByte_spec (b : Bench) (n : Nat) (h : ∀ e ∈ b.schedule, n + 1 < e.after) :
    ∃ sch, b.afterByte = some { b with schedule := sch } ∧
      (∀ m, (∀ e ∈ b.schedule, m + 1 < e.after) → ∀ e ∈ sch, m < e.after) ∧ (b.schedule = [] → sch = []) := by
  obtain ⟨block, reg, sched⟩ := b
  cases sched with
  | nil => exact ⟨[], rfl, by simp, by simp⟩
  | cons e rest =>
    have due : ¬ e.after ≤ 1 := by
      have := h e (by simp)
      omega
    refine ⟨{ e with after := e.after - 1 } :: rest, by simp [Bench.afterByte, due], fun m hm x hx => ?_, by simp⟩
    rcases List.mem_cons.1 hx with rfl | hx
    · have := hm e (by simp)
      simp only
      omega
    · have := hm x (by simp [hx])
      omega

/-- `RD a, n` inside the register file, before any event is due: the bytes of the registers, unchanged (R31). -/
theorem rd_spec (n : Nat) : ∀ (a : Nat) (b : Bench), a + n ≤ 16 → (∀ e ∈ b.schedule, n < e.after) →
    ∃ sch, b.rd a n = some ((List.range n).map (fun k => b.reg.toList.getD (a + k) 0), { b with schedule := sch }) ∧
      (∀ m, (∀ e ∈ b.schedule, n + m < e.after) → ∀ e ∈ sch, m < e.after) ∧ (b.schedule = [] → sch = []) := by
  induction n with
  | zero => exact fun a b _ _ => ⟨b.schedule, rfl, fun m h => by simpa using h, id⟩
  | succ n ih =>
    intro a b ha hs
    obtain ⟨sch, a1, a2, a3⟩ := afterByte_spec b n hs
    obtain ⟨sch', r1, r2, r3⟩ := ih (a + 1) { b with schedule := sch } (by omega) (a2 n hs)
    refine ⟨sch', ?_, fun m hm => r2 m (a2 (n + m) fun e he => by have := hm e he; omega), fun h => r3 (a3 h)⟩
    have hlt : a < 16 := by omega
    have hget : b.reg[a]? = some b.reg[a] := by simp
    simp only [Bench.rd, hget, a1, r1, List.range_succ_eq_map, List.map_cons, List.map_map]
    have first : b.reg.toList.getD a 0 = b.reg[a] := by
      simp [List.getD, hlt]
    simp only [Nat.add_zero, first]
    congr 3
    apply List.map_congr_left
    intro k _
    simp only [Function.comp_apply]
    congr 1
    omega

/-- A request always has an answer, and it changes nothing of the bench but the block (10_state.md R24). -/
theorem request_spec (q : Request) (b : Bench) :
    ∃ t, step (b.block.present q) = .next t ∧ b.request q = some { b with block := t } := by
  have answers : ∃ t, step (b.block.present q) = .next t := by
    unfold step
    split
    · next i _ => exact ⟨_, exec_answered i _⟩
    · exact ⟨_, rfl⟩
  obtain ⟨t, ht⟩ := answers
  exact ⟨t, ht, by simp only [Bench.request, ht]⟩

/-- An operation issued by its own word is that operation's answer, when the word decodes to it. -/
theorem issue_spec {i : Instr} (h : decode (encode i) = .ok i) (bytes : List Byte) (b : Bench) :
    ∃ t, exec i (b.block.present ⟨encode i, lanesOf bytes⟩) = .next t ∧ b.issue i bytes = some { b with block := t } := by
  obtain ⟨t, ht, hb⟩ := request_spec ⟨encode i, lanesOf bytes⟩ b
  refine ⟨t, ?_, hb⟩
  rw [← ht]
  simp [step, State.cmdWord, h]

end Sys2Proof.Machine
end

