-- ==== Sys2Proof/Laws/PerInstr.lean ====
section
/-! SUPPORT. Per-instruction facts of the encoding: where an operation's word carries what (30_encoding.md R70). -/

namespace Sys2Proof.Laws.Layout

/-- The word of an operation: OPC on top, RSV zero, FID at the bottom, and FID 0 where no field is taken (R70, R72, R73). -/
def Statement (i : Instr) : Prop :=
  cmdOpc (encode i) = i.opc ∧ cmdRsv (encode i) = 0 ∧ cmdFid (encode i) = i.fidBits

theorem bcdDec : Statement .bcdDec := ⟨rfl, rfl, rfl⟩
theorem bcdEnc : Statement .bcdEnc := ⟨rfl, rfl, rfl⟩
theorem fldGet (f : Field) : Statement (.fldGet f) := by cases f <;> exact ⟨rfl, rfl, rfl⟩
theorem fldPut (f : Field) : Statement (.fldPut f) := by cases f <;> exact ⟨rfl, rfl, rfl⟩
theorem flgOn (f : Field) : Statement (.flgOn f) := by cases f <;> exact ⟨rfl, rfl, rfl⟩
theorem flgOff (f : Field) : Statement (.flgOff f) := by cases f <;> exact ⟨rfl, rfl, rfl⟩
theorem flgTest (f : Field) : Statement (.flgTest f) := by cases f <;> exact ⟨rfl, rfl, rfl⟩
theorem dtUnpack : Statement .dtUnpack := ⟨rfl, rfl, rfl⟩
theorem dtPack : Statement .dtPack := ⟨rfl, rfl, rfl⟩
theorem tmPack : Statement .tmPack := ⟨rfl, rfl, rfl⟩
theorem almUnpack : Statement .almUnpack := ⟨rfl, rfl, rfl⟩
theorem almPack : Statement .almPack := ⟨rfl, rfl, rfl⟩
theorem mapField (f : Field) : Statement (.mapField f) := by cases f <;> exact ⟨rfl, rfl, rfl⟩
theorem mapReg : Statement .mapReg := ⟨rfl, rfl, rfl⟩
theorem mapDev : Statement .mapDev := ⟨rfl, rfl, rfl⟩

end Sys2Proof.Laws.Layout
end

