-- ==== Sys2Proof/Laws/Relations.lean ====
section
/-! SUPPORT. The bridge between the functions the block computes with and the relations the statements are written in:
a byte holds a decimal, a byte holds a field's value, a value fits a field. -/

namespace Sys2Proof.Machine

theorem mem_fieldsByFid (f : Field) : f ∈ fieldsByFid := by cases f <;> decide

/-- `bcdOk` and `bcd2dec` compute exactly what `HoldsBcd` says (41_bcd_codec.md R160). -/
theorem holdsBcd_iff (x : Byte) (n : Nat) : HoldsBcd x n ↔ bcdOk x = true ∧ n = bcd2dec x := by
  have tens : (x >>> 4).toNat = x.toNat / 16 := by simp [BitVec.toNat_ushiftRight, Nat.shiftRight_eq_div_pow]
  have ones : (x &&& 0x0F).toNat = x.toNat % 16 := by
    rw [BitVec.toNat_and]
    exact Nat.and_two_pow_sub_one_eq_mod x.toNat 4
  simp only [HoldsBcd, bcdOk, bcd2dec, tens, ones, Bool.and_eq_true, decide_eq_true_eq]
  constructor
  · rintro ⟨t, o, ht, ho, hx, hn⟩
    omega
  · rintro ⟨⟨h1, h2⟩, h3⟩
    exact ⟨x.toNat / 16, x.toNat % 16, h1, h2, by omega, h3⟩

theorem packed_eq_dec2bcd {d : Nat} (h : d ≤ 99) : packed d = dec2bcd d := by
  revert d
  decide

theorem fieldRaw_toNat (d : FieldDesc) (x : Byte) :
    (fieldRaw d x).toNat = (x &&& d.mask).toNat / 2 ^ d.shift.toNat := by
  simp [fieldRaw, Nat.shiftRight_eq_div_pow]

theorem inRange_iff (d : FieldDesc) (v : Byte) :
    inRange d v = true ↔ d.lo.toNat ≤ v.toNat ∧ v.toNat ≤ d.hi.toNat := by
  simp [inRange]

/-- `fdecode` gives a value exactly when the byte holds one, and then that one (42_field_ops.md R180). -/
theorem fdecode_iff (d : FieldDesc) (x : Byte) (v : Nat) :
    HoldsField d x v ↔ ∃ b, fdecode d x = some b ∧ v = b.toNat := by
  unfold HoldsField fdecode
  cases d.kind
  · simp only [holdsBcd_iff, Option.ite_none_right_eq_some, Option.some.injEq, inRange_iff]
    have value (h : bcdOk (fieldRaw d x) = true) :
        (toByte (bcd2dec (fieldRaw d x))).toNat = bcd2dec (fieldRaw d x) := by
      have := (dec2bcd_bcd2dec h).1
      simp only [toByte, BitVec.toNat_ofNat]
      omega
    constructor
    · rintro ⟨⟨h1, rfl⟩, h2⟩
      exact ⟨_, ⟨⟨h1, by rw [value h1]; exact h2⟩, rfl⟩, (value h1).symm⟩
    · rintro ⟨b, ⟨⟨h1, h2⟩, rfl⟩, rfl⟩
      exact ⟨⟨h1, value h1⟩, h2⟩
  · simp only [← fieldRaw_toNat, Option.ite_none_right_eq_some, Option.some.injEq, inRange_iff]
    constructor
    · rintro ⟨rfl, h2⟩
      exact ⟨_, ⟨h2, rfl⟩, rfl⟩
    · rintro ⟨b, ⟨h, rfl⟩, rfl⟩
      exact ⟨rfl, h⟩
  all_goals
    simp only [← fieldRaw_toNat, Option.some.injEq]
    exact ⟨fun h => ⟨_, rfl, h⟩, fun ⟨b, h1, h2⟩ => by rw [h1]; exact h2⟩

theorem fdecode_of_holdsField {d : FieldDesc} {x : Byte} {v : Nat} (h : HoldsField d x v) :
    fdecode d x = some (toByte v) := by
  obtain ⟨b, hb, rfl⟩ := (fdecode_iff d x v).1 h
  simp [hb]

theorem fdecode_eq_none_iff {d : FieldDesc} {x : Byte} : fdecode d x = none ↔ ¬ ∃ v, HoldsField d x v := by
  simp only [fdecode_iff]
  cases fdecode d x <;> simp

/-- The bits a flag operation inserts lie inside the flag's mask (42_field_ops.md R183). -/
theorem flagBit_inside {f : Field} (h : isFlag f = true) :
    onbit (romF f) <<< (romF f).shift &&& ~~~(romF f).mask = 0 ∧
      offbit (romF f) <<< (romF f).shift &&& ~~~(romF f).mask = 0 := by
  revert h
  cases f <;> decide

end Sys2Proof.Machine
end

