-- ==== Sys2Proof/Tests/Slice0.lean ====
section
/-! SUPPORT. The model's own tests. Expected words and responses come from spec/: the opcode map (30_encoding.md R71),
the worked examples of each operation's rule, and the vectors V<n> of 95_test_vectors.md. The witnesses show, for each
statement with hypotheses, a concrete case that meets them, at the boundaries of each clause. -/

namespace Sys2Proof.Tests

open Sys2Proof.Machine

/-- A small state: these bytes on IN, this word on CMD, and a response that no test reads. -/
def at_ (cmd : Word) (ins : List Byte) : State := ⟨⟨cmd, lanesOf ins⟩, ⟨.ok, Lanes.zero, 0, 0⟩⟩

/-- The response of one step. -/
def answer (cmd : Word) (ins : List Byte) : Option Response :=
  match step (at_ cmd ins) with
  | .next t => some t.resp
  | .fault _ => none
  | .refused _ => none

/-- What `decode` gives, as a value that can be compared. -/
def decoded (cmd : Word) : Option Instr :=
  match decode cmd with
  | .ok i => some i
  | .error _ => none

/-- Why `decode` refuses. -/
def rejected (cmd : Word) : Option Reject :=
  match decode cmd with
  | .ok _ => none
  | .error e => some e

/-! ### WellFormed refuses a non-FLAG field, for each of its three checks (R72) -/

theorem test_wellFormed_refuses_flgOn : (Instr.flgOn .hours).wellFormed = false := by decide
theorem test_wellFormed_refuses_flgOff : (Instr.flgOff .fd).wellFormed = false := by decide
theorem test_wellFormed_refuses_flgTest : (Instr.flgTest .td).wellFormed = false := by decide

/-! ### Every constructor's decoding, from words written out bit by bit (R70, R71): OPC, RSV, FID -/

theorem test_decode_bcdDec : decoded (0b0000#4 ++ 0b0000000#7 ++ 0b00000#5) = some .bcdDec := by decide
theorem test_decode_bcdEnc : decoded (0b0001#4 ++ 0b0000000#7 ++ 0b00000#5) = some .bcdEnc := by decide
theorem test_decode_fldGet : decoded (0b0010#4 ++ 0b0000000#7 ++ 0b00010#5) = some (.fldGet .hours) := by decide
theorem test_decode_fldPut : decoded (0b0011#4 ++ 0b0000000#7 ++ 0b01000#5) = some (.fldPut .hourAlarm) := by decide
theorem test_decode_flgOn : decoded (0b0100#4 ++ 0b0000000#7 ++ 0b10101#5) = some (.flgOn .stop) := by decide
theorem test_decode_flgOff : decoded (0b0101#4 ++ 0b0000000#7 ++ 0b11000#5) = some (.flgOff .af) := by decide
theorem test_decode_flgTest : decoded (0b0110#4 ++ 0b0000000#7 ++ 0b11001#5) = some (.flgTest .tf) := by decide
theorem test_decode_dtUnpack : decoded (0b0111#4 ++ 0b0000000#7 ++ 0b00000#5) = some .dtUnpack := by decide
theorem test_decode_dtPack : decoded (0b1000#4 ++ 0b0000000#7 ++ 0b00000#5) = some .dtPack := by decide
theorem test_decode_tmPack : decoded (0b1001#4 ++ 0b0000000#7 ++ 0b00000#5) = some .tmPack := by decide
theorem test_decode_almUnpack : decoded (0b1010#4 ++ 0b0000000#7 ++ 0b00000#5) = some .almUnpack := by decide
theorem test_decode_almPack : decoded (0b1011#4 ++ 0b0000000#7 ++ 0b00000#5) = some .almPack := by decide
theorem test_decode_mapField : decoded (0b1100#4 ++ 0b0000000#7 ++ 0b10001#5) = some (.mapField .aeH) := by decide
theorem test_decode_mapReg : decoded (0b1101#4 ++ 0b0000000#7 ++ 0b00000#5) = some .mapReg := by decide
theorem test_decode_mapDev : decoded (0b1110#4 ++ 0b0000000#7 ++ 0b00000#5) = some .mapDev := by decide

/-- The five causes of R302, at the words of V19, V146, V80, V79 and V145; and R75's order among them. -/
theorem test_decode_rejects :
    rejected 0x0020 = some .reservedBits ∧ rejected 0xF000 = some .reservedOpcode ∧
    rejected 0x201E = some .reservedField ∧ rejected 0x500D = some .notAFlag ∧
    rejected 0xE001 = some .fieldNotTaken ∧ rejected 0xFFFF = some .reservedBits ∧
    rejected 0x401F = some .reservedField := by decide

/-- The host's two readings of a table word: the decoder's, and the step's first request after reset. -/
theorem test_table_word : decodeTableWord 16 0x4015 = some (.flgOn .stop) ∧ decodeTableWord 16 0xF000 = none ∧
    (State.reset.withFetchWord 16 0x4015).req.cmd = 0x4015 := by decide

/-- The first step after reset runs the table word, whatever OUT_RESET is (log entry 2). -/
theorem test_first_step_after_reset :
    (match step (State.reset.withFetchWord 16 0xE000) with
      | .next s => some s.resp
      | .fault _ => none
      | .refused _ => none) = some ⟨.ok, lanesOf [0x51, 16, 30], 0, 0⟩ := by decide

/-! ### One or two vectors for each operation (95_test_vectors.md) -/

/-- V3: bit 7 masked away. -/
theorem test_bcdDec_masks : answer 0x0000 [0xD9, 0x7F] = some ⟨.ok, lanesOf [59], 0, 0⟩ := by decide
/-- V5: the ones digit is checked too (C1). -/
theorem test_bcdDec_ones_digit : answer 0x0000 [0x0A, 0xFF] = some ⟨.decodeAnomaly, Lanes.zero, 0, 0⟩ := by decide
/-- V13: no field range in BCD_ENC. -/
theorem test_bcdEnc_no_range : answer 0x1000 [60, 0x7F] = some ⟨.ok, lanesOf [0x60], 0, 0⟩ := by decide
/-- V14: the BCD form must fit the mask (D9). -/
theorem test_bcdEnc_outside_mask : answer 0x1000 [80, 0x7F] = some ⟨.invalidArgument, Lanes.zero, 0, 0⟩ := by decide
/-- V30: the century is ignored. -/
theorem test_fldGet_months : answer 0x2005 [0x92] = some ⟨.ok, lanesOf [12], 0x07, 1⟩ := by decide
/-- V33: binary 10 is not BCD (C7). -/
theorem test_fldGet_months_binary : answer 0x2005 [0x0A] = some ⟨.decodeAnomaly, Lanes.zero, 0, 0⟩ := by decide
/-- V44: century and don't-care bits kept. -/
theorem test_fldPut_months : answer 0x3005 [0x85, 11] = some ⟨.ok, lanesOf [0x91], 0x07, 1⟩ := by decide
/-- V52: code 4 is no TD code. -/
theorem test_fldPut_td_range : answer 0x300C [0x00, 4] = some ⟨.invalidArgument, Lanes.zero, 0, 0⟩ := by decide
/-- V60: active-low, so on clears the bit. -/
theorem test_flgOn_active_low : answer 0x4010 [0xB0] = some ⟨.ok, lanesOf [0x30], 0x09, 1⟩ := by decide
/-- V77: a non-FLAG field. -/
theorem test_flgOn_non_flag : answer 0x4002 [0x00] = some ⟨.illegalRequest, Lanes.zero, 0, 0⟩ := by decide
/-- V65: TF and the rest kept. -/
theorem test_flgOff_af : answer 0x5018 [0x1F] = some ⟨.ok, lanesOf [0x17], 0x01, 1⟩ := by decide
/-- V70: must-be-zero bits are passed through (D22). -/
theorem test_flgOff_keeps_mbz : answer 0x5016 [0x57] = some ⟨.ok, lanesOf [0x57], 0x00, 1⟩ := by decide
/-- V73: AE bit 0 is enabled. -/
theorem test_flgTest_active_low : answer 0x6011 [0x05] = some ⟨.ok, lanesOf [1], 0x0A, 1⟩ := by decide
/-- V83: every don't-care bit, VL and C set; C is reported in OUT7. -/
theorem test_dtUnpack_masks : answer 0x7000 [0xD9, 0xD9, 0xE3, 0xF1, 0xFE, 0xF2, 0x99] =
    some ⟨.ok, lanesOf [59, 59, 23, 31, 6, 12, 99, 1], 0x02, 7⟩ := by decide
/-- V87: month 0 with C set. -/
theorem test_dtUnpack_month_zero : answer 0x7000 [0x00, 0x00, 0x00, 0x01, 0x00, 0x80, 0x00] =
    some ⟨.decodeAnomaly, Lanes.zero, 0, 0⟩ := by decide
/-- V91: the source's end-to-end datetime. -/
theorem test_dtPack : answer 0x8000 [0, 52, 16, 4, 0, 4, 21] =
    some ⟨.ok, lanesOf [0x00, 0x52, 0x16, 0x04, 0x00, 0x04, 0x21], 0x02, 7⟩ := by decide
/-- V100: year 100. -/
theorem test_dtPack_year_100 : answer 0x8000 [0, 0, 0, 1, 0, 1, 100] =
    some ⟨.invalidArgument, Lanes.zero, 0, 0⟩ := by decide
/-- V102: IN3..IN7 are not read. -/
theorem test_tmPack : answer 0x9000 [59, 59, 23, 85, 85] =
    some ⟨.ok, lanesOf [0x59, 0x59, 0x23], 0x02, 3⟩ := by decide
/-- V104: mixed enables. -/
theorem test_almUnpack : answer 0xA000 [0x30, 0x07, 0x81, 0x80] =
    some ⟨.ok, lanesOf [30, 7, 1, 0, 1, 1, 0, 0], 0x09, 4⟩ := by decide
/-- V107: day 0 in a disabled lane (D20). -/
theorem test_almUnpack_disabled_day_zero : answer 0xA000 [0x80, 0x80, 0x80, 0x80] =
    some ⟨.decodeAnomaly, Lanes.zero, 0, 0⟩ := by decide
/-- V111: maxima, all disabled. -/
theorem test_almPack : answer 0xB000 [59, 23, 31, 6, 0, 0, 0, 0] =
    some ⟨.ok, lanesOf [0xD9, 0xA3, 0xB1, 0x86], 0x09, 4⟩ := by decide
/-- V113: enable byte 2. -/
theorem test_almPack_enable_two : answer 0xB000 [0, 0, 1, 0, 2, 0, 0, 0] =
    some ⟨.invalidArgument, Lanes.zero, 0, 0⟩ := by decide
/-- V122: the descriptor of an active-low flag. -/
theorem test_mapField : answer 0xC011 [] = some ⟨.ok, lanesOf [0x0A, 0x80, 7, 3, 0, 1, 1], 0, 0⟩ := by decide
/-- V133 and V142: the last legal address's neighbour is invalid. -/
theorem test_mapReg : answer 0xD000 [0x07] = some ⟨.ok, lanesOf [0x9F, 0x60, 0x00, 2], 0, 0⟩ ∧
    answer 0xD000 [0x10] = some ⟨.invalidArgument, Lanes.zero, 0, 0⟩ := by decide
/-- V144: no IN byte is read. -/
theorem test_mapDev : answer 0xE000 [0x55, 0x55, 0x55, 0x55, 0x55, 0x55, 0x55, 0x55] =
    some ⟨.ok, lanesOf [0x51, 16, 30], 0, 0⟩ := by decide

/-! ### Assembler and host programs -/

/-- R78's example: `FLD_PUT HOUR_ALARM ; IN=[0x80, 5]` is CMD = 0x3008. -/
theorem test_assemble : assemble "FLD_PUT" (some "HOUR_ALARM") [0x80, 5] = some ⟨0x3008, lanesOf [0x80, 5]⟩ ∧
    assemble "FLD_PUT" none [0x80, 5] = none ∧ assemble "MAP_DEV" (some "TD") [] = none := by decide

/-- R79's aliases: `CLK_RUN` is `FLG_OFF STOP` (V68's word), `ALM_EN AE_M` is `FLG_ON AE_M` (V60's word), and a field on
an alias that takes none, or one that is no AE field, is not accepted. -/
theorem test_assemble_alias : assemble "CLK_RUN" none [0x20] = some ⟨0x5015, lanesOf [0x20]⟩ ∧
    assemble "ALM_EN" (some "AE_M") [0xB0] = some ⟨0x4010, lanesOf [0xB0]⟩ ∧
    assemble "CLK_RUN" (some "STOP") [] = none ∧ assemble "ALM_EN" (some "VL") [] = none := by decide

/-- Log entry 8's choice: a non-FLAG name on a FLAG-only operation gives the word of V77. -/
theorem test_assemble_non_flag : assemble "FLG_ON" (some "HOURS") [0] = some ⟨0x4002, lanesOf [0]⟩ := by decide

/-- A sequence as R79 writes it; with an argument too few it names none. -/
theorem test_sequence_text : sequenceOfText "set_time" [5, 30, 23] = some (.setTime 5 30 23) ∧
    sequenceOfText "get_alarm" [] = some .getAlarm ∧ sequenceOfText "set_time" [5, 30] = none := by decide

/-- A fixture with these sixteen register bytes. -/
def bench (reg : Vector Byte 16) (schedule : List RtcEvent) : Bench := ⟨at_ 0 [], reg, schedule⟩

/-- The register bytes after a host sequence. -/
def registersAfter (b : Option Bench) : Option (List Byte) := b.map fun x => x.reg.toList

/-- P4: the torn read of 16:59:59 to 17:00:00 is retried, and the result is 17:00:00. -/
theorem test_torn_read : ((bench #v[0, 0, 0x59, 0x59, 0x16, 4, 0, 4, 0x21, 0, 0, 0, 0, 0, 0, 0]
      [⟨1, [(2, 0x00), (3, 0x00), (4, 0x17)]⟩]).getDatetime).map (fun x => x.block.resp.out) =
    some (lanesOf [0, 0, 17, 4, 0, 4, 21, 0]) := by decide

/-- P6: a rejected write leaves every register as it was. -/
theorem test_rejected_write : registersAfter ((bench #v[0, 0x0C, 5, 0x30, 0x23, 4, 0, 4, 0x21, 0, 0, 0, 0, 0, 0, 0]
      []).setDatetime 61 0 0 1 0 1 0) =
    some [0, 0x0C, 5, 0x30, 0x23, 4, 0, 4, 0x21, 0, 0, 0, 0, 0, 0, 0] := by decide

/-- R223's second way: V91's bytes with C put into OUT5, where V64 (`FLG_ON C` on 0x04) gives 0x84. -/
theorem test_century_in_datetime : registersAfter ((bench #v[0, 0, 0, 0, 0, 0, 0, 0, 0, 0, 0, 0, 0, 0, 0, 0]
      []).setDatetimeWithCentury 0 52 16 4 0 4 21 .on) =
    some [0, 0, 0x00, 0x52, 0x16, 0x04, 0x00, 0x84, 0x21, 0, 0, 0, 0, 0, 0, 0] := by decide

/-- P5: a month update keeps the century. -/
theorem test_month_keeps_century : registersAfter ((bench #v[0, 0, 0, 0, 0, 0, 0, 0x85, 0, 0, 0, 0, 0, 0, 0, 0]
      []).setField .months 11) =
    some [0, 0, 0, 0, 0, 0, 0, 0x91, 0, 0, 0, 0, 0, 0, 0, 0] := by decide

/-! ### Witnesses: each statement's hypotheses are met, clause by clause -/

theorem witness_DecodeOfEncode : (Instr.flgOn .vl).wellFormed = true ∧ (Instr.flgTest .fe).wellFormed = true ∧
    Instr.mapDev.wellFormed = true := by decide

theorem witness_EncodeOfDecode : decode 0x401D = .ok (.flgOn .fe) ∧ decode 0xE000 = .ok .mapDev := ⟨rfl, rfl⟩

theorem witness_StepRunsTheDecodedOperation : decode (at_ 0x600E []).req.cmd = .ok (.flgTest .vl) := rfl

/-- Each cause at the edge of its range, and the legal words beside them. -/
theorem witness_IllegalWordsAnswerIllegalRequest :
    IllegalWord 0x0020 ∧ IllegalWord 0xF000 ∧ IllegalWord 0x201E ∧ IllegalWord 0x400D ∧ IllegalWord 0x0001 ∧
    ¬ IllegalWord 0x0000 ∧ ¬ IllegalWord 0x201D ∧ ¬ IllegalWord 0x400E ∧ ¬ IllegalWord 0x601D ∧ ¬ IllegalWord 0xE000 := by
  refine ⟨?_, ?_, ?_, ?_, ?_, ?_, ?_, ?_, ?_, ?_⟩ <;> simp [IllegalWord, opcOf]

theorem witness_step : step (at_ 0x0001 []) = .next ⟨⟨0x0001, lanesOf []⟩, ⟨.illegalRequest, Lanes.zero, 0, 0⟩⟩ := rfl

theorem witness_EveryAnswerIsCoherent : ∃ t, step (at_ 0x7000 []) = .next t := ⟨_, rfl⟩

theorem witness_StepKeepsRespInv : (at_ 0x0000 []).RespInv ∧ ∃ t, step (at_ 0x0000 []) = .next t := by
  refine ⟨.inr ⟨by decide, by decide, by decide, fun h => absurd rfl h⟩, _, rfl⟩

theorem witness_RepeatedRequestRepeatsTheResponse : ∃ t, step (at_ 0x9000 [0, 0, 24]) = .next t := ⟨_, rfl⟩

theorem witness_UnreadLanesHaveNoEffect :
    (∀ k, readsLane .tmPack k = true → (at_ 0x9000 [1, 2, 3, 4]).inByte k = (at_ 0x1234 [1, 2, 3, 85, 85]).inByte k) ∧
    ∃ t, exec .tmPack (at_ 0x9000 [1, 2, 3, 4]) = .next t := by
  exact ⟨by decide, _, rfl⟩

theorem witness_ErrorsCarryNothing : ∃ t u, step (at_ 0xF000 [7]) = .next t ∧ t.resp.status ≠ .ok ∧
    step ((at_ 0xF000 [7]).present ⟨0xE000, lanesOf []⟩) = .next u := by
  exact ⟨_, _, rfl, by decide, rfl⟩

theorem witness_BcdHelpersAreInverse : 99 ≤ 99 ∧ bcdOk 0x99 = true ∧ bcdOk 0x00 = true := by decide

theorem witness_BcdDecResult :
    HoldsBcd ((at_ 0 [0x99, 0xFF]).req.ins.l0 &&& (at_ 0 [0x99, 0xFF]).req.ins.l1) 99 ∧
    (¬ ∃ n, HoldsBcd ((at_ 0 [0x9A, 0xFF]).req.ins.l0 &&& (at_ 0 [0x9A, 0xFF]).req.ins.l1) n) ∧
    (¬ ∃ n, HoldsBcd ((at_ 0 [0xA0, 0xFF]).req.ins.l0 &&& (at_ 0 [0xA0, 0xFF]).req.ins.l1) n) ∧
    opcOf (at_ 0x0001 []).req.cmd = 0x0 ∧ lowOf (at_ 0x0001 []).req.cmd ≠ 0 := by
  simp only [holdsBcd_iff, not_exists, not_and]
  exact ⟨by decide, fun n h => absurd h (by decide), fun n h => absurd h (by decide), by decide, by decide⟩

theorem witness_BcdEncResult :
    ((at_ 0 [99, 0xFF]).req.ins.l0.toNat ≤ 99 ∧ packed 99 &&& ~~~(at_ 0 [99, 0xFF]).req.ins.l1 = 0) ∧
    99 < (at_ 0 [100, 0xFF]).req.ins.l0.toNat ∧
    packed (at_ 0 [80, 0x7F]).req.ins.l0.toNat &&& ~~~(at_ 0 [80, 0x7F]).req.ins.l1 ≠ 0 ∧
    opcOf (at_ 0x1020 []).req.cmd = 0x1 ∧ lowOf (at_ 0x1020 []).req.cmd ≠ 0 := by decide

theorem witness_BcdCodecLaws :
    AnswersByte (exec .bcdEnc ((at_ 0 []).withIns [7, 0x07])) 0x07 ∧ (99 : Byte).toNat ≤ 99 ∧ bcdOk 0x99 = true ∧
    ((at_ 0 [0xD9, 0x7F]).req.ins.l0 &&& 0x7F = (at_ 0 [0x59, 0x7F]).req.ins.l0 &&& 0x7F ∧
      ∃ t, exec .bcdDec (at_ 0 [0xD9, 0x7F]) = .next t) ∧ 100 ≤ (100 : Byte).toNat := by
  exact ⟨⟨_, rfl, rfl, rfl⟩, by decide, by decide, ⟨by decide, _, rfl⟩, by decide⟩

theorem witness_FldGetResult :
    HoldsField (romF .months) (at_ 0 [0x92]).req.ins.l0 12 ∧ HoldsField (romF .days) (at_ 0 [0x01]).req.ins.l0 1 ∧
    HoldsField (romF .weekdays) (at_ 0 [0xFE]).req.ins.l0 6 ∧ HoldsField (romF .td) (at_ 0 [0xFF]).req.ins.l0 3 ∧
    HoldsField (romF .aeM) (at_ 0 [0x80]).req.ins.l0 1 ∧
    (¬ ∃ v, HoldsField (romF .months) (at_ 0 [0x13]).req.ins.l0 v) ∧
    (¬ ∃ v, HoldsField (romF .weekdayAlarm) (at_ 0 [0xFF]).req.ins.l0 v) ∧
    opcOf (at_ 0x201E []).req.cmd = 0x2 ∧ 30 ≤ lowOf (at_ 0x201E []).req.cmd := by
  refine ⟨?_, ?_, ?_, ?_, ?_, fdecode_eq_none_iff.1 (by decide), fdecode_eq_none_iff.1 (by decide), by decide, by decide⟩
  all_goals exact (fdecode_iff _ _ _).2 ⟨_, rfl, rfl⟩

theorem witness_FldPutResult :
    ((romF .hours).lo.toNat ≤ 23 ∧ (at_ 0 [0, 23]).req.ins.l1.toNat ≤ (romF .hours).hi.toNat) ∧
    (romF .timerValue).lo.toNat ≤ 255 ∧ 255 ≤ (romF .timerValue).hi.toNat ∧
    (at_ 0 [0, 0]).req.ins.l1.toNat < (romF .days).lo.toNat ∧ (romF .hours).hi.toNat < (at_ 0 [0, 24]).req.ins.l1.toNat ∧
    opcOf (at_ 0x301E []).req.cmd = 0x3 ∧ 30 ≤ lowOf (at_ 0x301E []).req.cmd := by decide

/-- The FLAG fields' edges, FID 14 and 29, the words of the last non-FLAG field, FID 13, and the other bad words beside the legal ones:
for FLG_ON, FLG_OFF and FLG_TEST alike. -/
theorem witness_FlgResults :
    14 ≤ Field.vl.fid.toNat ∧ 14 ≤ Field.fe.fid.toNat ∧
    (opcOf (at_ 0x400D []).req.cmd = 0x4 ∧ lowOf (at_ 0x400D []).req.cmd ≤ 13) ∧
    (opcOf (at_ 0x401E []).req.cmd = 0x4 ∧ 30 ≤ lowOf (at_ 0x401E []).req.cmd) ∧
    (opcOf (at_ 0x500D []).req.cmd = 0x5 ∧ lowOf (at_ 0x500D []).req.cmd ≤ 13) ∧
    (opcOf (at_ 0x501E []).req.cmd = 0x5 ∧ 30 ≤ lowOf (at_ 0x501E []).req.cmd) ∧
    (opcOf (at_ 0x600D []).req.cmd = 0x6 ∧ lowOf (at_ 0x600D []).req.cmd ≤ 13) ∧
    (opcOf (at_ 0x601E []).req.cmd = 0x6 ∧ 30 ≤ lowOf (at_ 0x601E []).req.cmd) := by decide

theorem witness_SiblingBitsArePreserved :
    (∃ t, exec (.fldPut .months) (at_ 0 [0x85, 11]) = .next t ∧ t.resp.status = .ok) ∧
    (∃ t, exec (.flgOn .aeM) (at_ 0 [0xB0]) = .next t ∧ t.resp.status = .ok) ∧
    (∃ t, exec (.flgOff .af) (at_ 0 [0x1F]) = .next t ∧ t.resp.status = .ok) := by
  exact ⟨⟨_, rfl, rfl⟩, ⟨_, rfl, rfl⟩, ⟨_, rfl, rfl⟩⟩

theorem witness_FieldDecodeSeesOnlyTheMask :
    (at_ 0 [0xD6]).req.ins.l0 &&& (romF .hours).mask = (at_ 0 [0x16, 9]).req.ins.l0 &&& (romF .hours).mask ∧
    (∃ t, exec (.fldGet .hours) (at_ 0 [0xD6]) = .next t) ∧
    (at_ 0 [0x85]).req.ins.l0 &&& (romF .aeH).mask = (at_ 0 [0x80]).req.ins.l0 &&& (romF .aeH).mask ∧
    ∃ t, exec (.flgTest .aeH) (at_ 0 [0x85]) = .next t := by
  exact ⟨by decide, ⟨_, rfl⟩, by decide, _, rfl⟩

theorem witness_PutThenGet_and_LegalValues :
    ((romF .months).lo.toNat ≤ (12 : Byte).toNat ∧ (12 : Byte).toNat ≤ (romF .months).hi.toNat) ∧
    ((romF .days).lo.toNat ≤ (1 : Byte).toNat ∧ (1 : Byte).toNat ≤ (romF .days).hi.toNat) ∧
    14 ≤ Field.vl.fid.toNat ∧ 14 ≤ Field.fe.fid.toNat := by decide

theorem witness_DtUnpackResult :
    HoldsDatetime (at_ 0 [0xD9, 0xD9, 0xE3, 0xF1, 0xFE, 0xF2, 0x99]).req.ins 59 59 23 31 6 12 99 ∧
    (¬ ∃ s mi h d w mo y, HoldsDatetime (at_ 0 [0, 0, 0, 0x00, 0, 1, 0]).req.ins s mi h d w mo y) ∧
    opcOf (at_ 0x7001 []).req.cmd = 0x7 ∧ lowOf (at_ 0x7001 []).req.cmd ≠ 0 := by
  refine ⟨⟨?_, ?_, ?_, ?_, ?_, ?_, ?_⟩, ?_, by decide, by decide⟩
  · exact ⟨(holdsBcd_iff _ _).2 (by decide), by decide⟩
  · exact ⟨(holdsBcd_iff _ _).2 (by decide), by decide⟩
  · exact ⟨(holdsBcd_iff _ _).2 (by decide), by decide⟩
  · exact ⟨(holdsBcd_iff _ _).2 (by decide), by decide⟩
  · decide
  · exact ⟨(holdsBcd_iff _ _).2 (by decide), by decide⟩
  · exact ⟨(holdsBcd_iff _ _).2 (by decide), by decide⟩
  · rintro ⟨s, mi, h, d, w, mo, y, hd⟩
    obtain ⟨h1, h2, -⟩ := hd.days
    obtain ⟨-, rfl⟩ := (holdsBcd_iff _ _).1 h1
    exact absurd h2 (by decide)

theorem witness_DtPackResult :
    DatetimeInRange 59 59 23 31 6 12 99 ∧ DatetimeInRange 0 0 0 1 0 1 0 ∧ ¬ DatetimeInRange 60 0 0 1 0 1 0 ∧
    ¬ DatetimeInRange 0 0 0 1 0 13 0 ∧ ¬ DatetimeInRange 0 0 0 1 0 1 100 ∧
    opcOf (at_ 0x8001 []).req.cmd = 0x8 ∧ lowOf (at_ 0x8001 []).req.cmd ≠ 0 := by
  unfold DatetimeInRange TimeInRange
  decide

theorem witness_TmPackResult : TimeInRange 59 59 23 ∧ ¬ TimeInRange 0 0 24 ∧
    opcOf (at_ 0x9001 []).req.cmd = 0x9 ∧ lowOf (at_ 0x9001 []).req.cmd ≠ 0 := by
  unfold TimeInRange
  decide

theorem witness_DatetimeLaws :
    DatetimeInRange (0 : Byte).toNat (52 : Byte).toNat (16 : Byte).toNat (4 : Byte).toNat (0 : Byte).toNat
      (4 : Byte).toNat (21 : Byte).toNat ∧
    (∃ t u, exec .dtPack (at_ 0 [0, 52, 16, 4, 0, 4, 21]) = .next t ∧
      exec .tmPack (at_ 0 [0, 52, 16, 9]) = .next u ∧ t.resp.status = .ok) ∧
    (∃ t, exec .dtUnpack (at_ 0 [0xD9, 0xD9, 0xE3, 0xF1, 0xFE, 0xF2, 0x99]) = .next t) ∧
    (0xD9 : Byte) &&& 0x7F = 0x59 &&& 0x7F ∧ (0xE3 : Byte) &&& 0x3F = 0x23 &&& 0x3F ∧
    (0xF1 : Byte) &&& 0x3F = 0x31 &&& 0x3F ∧ (0xFE : Byte) &&& 0x07 = 0x06 &&& 0x07 ∧
    (0xF2 : Byte) &&& 0x9F = 0x92 &&& 0x9F := by
  refine ⟨by unfold DatetimeInRange TimeInRange; decide, ⟨_, _, rfl, rfl, rfl⟩, ⟨_, rfl⟩, ?_⟩
  decide

theorem witness_CenturyResetByPackKeptByPut :
    (∃ t, exec .dtPack (at_ 0 [0, 0, 0, 1, 0, 11, 0]) = .next t ∧ t.resp.status = .ok) ∧
    1 ≤ (at_ 0 [0x85, 1]).req.ins.l1.toNat ∧ (at_ 0 [0x85, 12]).req.ins.l1.toNat ≤ 12 ∧
    centuryValue (.put 1) ≤ 1 ∧ centuryValue .on ≤ 1 ∧ centuryValue .off ≤ 1 := by
  exact ⟨⟨_, rfl, rfl⟩, by decide, by decide, by decide, by decide, by decide⟩

theorem witness_AlmUnpackResult :
    HoldsAlarm (at_ 0 [0xD9, 0xE3, 0xF1, 0xFE]).req.ins 59 23 31 6 ∧
    (¬ ∃ m h d w, HoldsAlarm (at_ 0 [0x80, 0x80, 0x80, 0x80]).req.ins m h d w) ∧
    opcOf (at_ 0xA001 []).req.cmd = 0xA ∧ lowOf (at_ 0xA001 []).req.cmd ≠ 0 := by
  refine ⟨⟨?_, ?_, ?_, ?_⟩, ?_, by decide, by decide⟩
  · exact ⟨(holdsBcd_iff _ _).2 (by decide), by decide⟩
  · exact ⟨(holdsBcd_iff _ _).2 (by decide), by decide⟩
  · exact ⟨(holdsBcd_iff _ _).2 (by decide), by decide⟩
  · decide
  · rintro ⟨m, h, d, w, hd⟩
    obtain ⟨h1, h2, -⟩ := hd.day
    obtain ⟨-, rfl⟩ := (holdsBcd_iff _ _).1 h1
    exact absurd h2 (by decide)

theorem witness_AlmPackResult :
    AlarmInRange 59 23 31 6 ∧ AlarmInRange 0 0 1 0 ∧ ¬ AlarmInRange 60 0 1 0 ∧ ¬ AlarmInRange 0 0 0 0 ∧
    (at_ 0 [0, 0, 1, 0, 1, 0, 1, 0]).req.ins.l4.toNat ≤ 1 ∧ 1 < (at_ 0 [0, 0, 1, 0, 2, 0, 0, 0]).req.ins.l4.toNat ∧
    opcOf (at_ 0xB001 []).req.cmd = 0xB ∧ lowOf (at_ 0xB001 []).req.cmd ≠ 0 := by
  unfold AlarmInRange
  decide

theorem witness_AlarmRoundTrip :
    AlarmInRange (30 : Byte).toNat (7 : Byte).toNat (1 : Byte).toNat (0 : Byte).toNat ∧ (1 : Byte).toNat ≤ 1 := by
  unfold AlarmInRange
  decide

theorem witness_AlarmValueAndEnableAreIndependent :
    (∃ t, exec (.fldPut (alarmValueField .hour)) (at_ 0 [0x87, 5]) = .next t ∧ t.resp.status = .ok) ∧
    (∃ t, exec (.flgOn (alarmEnableField .hour)) (at_ 0 [0x85]) = .next t ∧ t.resp.status = .ok) ∧
    ∃ t, exec (.flgOff (alarmEnableField .weekday)) (at_ 0 [0x03]) = .next t ∧ t.resp.status = .ok := by
  exact ⟨⟨_, rfl, rfl⟩, ⟨_, rfl, rfl⟩, _, rfl, rfl⟩

theorem witness_MapResults :
    (opcOf (at_ 0xC01E []).req.cmd = 0xC ∧ 30 ≤ lowOf (at_ 0xC01E []).req.cmd) ∧
    (at_ 0 [0x0F]).req.ins.l0.toNat ≤ 0x0F ∧ 0x0F < (at_ 0 [0x10]).req.ins.l0.toNat ∧
    (opcOf (at_ 0xD001 []).req.cmd = 0xD ∧ lowOf (at_ 0xD001 []).req.cmd ≠ 0) ∧
    (opcOf (at_ 0xE001 []).req.cmd = 0xE ∧ lowOf (at_ 0xE001 []).req.cmd ≠ 0) := by decide

theorem witness_RegisterBitsArePartitioned : (0x0F : Byte).toNat ≤ 0x0F := by decide

/-- A fixture of zeros. -/
def zeros (schedule : List RtcEvent) : Bench := bench #v[0, 0, 0, 0, 0, 0, 0, 0, 0, 0, 0, 0, 0, 0, 0, 0] schedule

theorem witness_WriteBackOnlyOnOk :
    ((zeros []).request ⟨0x9000, lanesOf [5, 30, 23]⟩).map (fun b => b.block.resp.status) = some .ok ∧
    ((zeros []).request ⟨0x9000, lanesOf [5, 30, 24]⟩).map (fun b => b.block.resp.status) = some .invalidArgument := by
  decide

theorem witness_SetTimeLeavesTheDate : TimeInRange (59 : Byte).toNat (59 : Byte).toNat (23 : Byte).toNat ∧
    ¬ TimeInRange (60 : Byte).toNat (0 : Byte).toNat (0 : Byte).toNat := by
  unfold TimeInRange
  decide

theorem witness_SetThenGetDatetime : (zeros []).schedule = [] ∧
    DatetimeInRange (59 : Byte).toNat (52 : Byte).toNat (16 : Byte).toNat (4 : Byte).toNat (0 : Byte).toNat
      (4 : Byte).toNat (21 : Byte).toNat := by
  unfold DatetimeInRange TimeInRange
  decide

/-- A first read with seconds 59 and one without, and a schedule whose first event lies beyond both reads. -/
theorem witness_TornReadIsRetriedOnce :
    (((bench #v[0, 0, 0x59, 0x59, 0x16, 4, 0, 4, 0x21, 0, 0, 0, 0, 0, 0, 0] []).readThenIssue .dtUnpack 0x02 7 []).map
      fun b => (b.block.resp.status, b.block.resp.out.l0)) = some (.ok, 59) ∧
    (((zeros [⟨15, [(2, 0x01)]⟩]).readThenIssue .dtUnpack 0x02 7 []).map fun b => b.block.resp.status) =
      some .decodeAnomaly ∧
    ∀ e ∈ (zeros [⟨15, [(2, 0x01)]⟩]).schedule, 14 < e.after := by
  decide

theorem witness_AlarmComponentsAreIndependent : (zeros []).schedule = [] := rfl

theorem witness_FacadeNeverSetsMustBeZeroBits : (zeros []).schedule = [] ∧ MbzClear (zeros []).reg ∧
    (∃ b', (zeros []).runSequence (.setField .td 3) = some b') ∧ (∃ b', (zeros []).runSequence (.pseudo .clkStop 0) = some b') ∧
    (∃ b', (zeros []).runSequence (.setDatetimeWithCentury 0 0 0 1 0 1 0 .on) = some b') ∧
    (∃ b', (zeros []).runSequence (.setDatetimeKeepingCentury 0 0 0 1 0 1 0) = some b') ∧
    (∃ b', (zeros []).runSequence (.setTime 0 0 0) = some b') ∧ (∃ b', (zeros []).runSequence .getDatetime = some b') ∧
    (∃ b', (zeros []).runSequence (.setAlarm 0 0 1 0 1 1 1 1) = some b') ∧ ∃ b', (zeros []).runSequence .init = some b' := by
  refine ⟨rfl, ?_, ⟨_, rfl⟩, ⟨_, rfl⟩, ⟨_, rfl⟩, ⟨_, rfl⟩, ⟨_, rfl⟩, ⟨_, rfl⟩, ⟨_, rfl⟩, _, rfl⟩
  intro a r _
  have zero : ∀ k : Fin 16, (zeros []).reg[k] = 0 := by decide
  rw [zero a]
  simp

/-- Every clause's premise: in range with the century's edges, a datetime out of range, and a century above 1. -/
theorem witness_CenturyIsWrittenWithTheDatetime :
    DatetimeInRange (59 : Byte).toNat (59 : Byte).toNat (23 : Byte).toNat (31 : Byte).toNat (6 : Byte).toNat
      (12 : Byte).toNat (99 : Byte).toNat ∧ centuryValue (.put 0) ≤ 1 ∧ centuryValue (.put 1) ≤ 1 ∧
    ¬ DatetimeInRange 0 0 0 1 0 0 0 ∧ ¬ centuryValue (.put 2) ≤ 1 := by
  unfold DatetimeInRange TimeInRange
  decide

theorem witness_CenturyIsKeptByBothWays : (zeros []).schedule = [] ∧ 1 ≤ (12 : Byte).toNat ∧ (12 : Byte).toNat ≤ 12 ∧
    DatetimeInRange (0 : Byte).toNat (0 : Byte).toNat (0 : Byte).toNat (1 : Byte).toNat (0 : Byte).toNat
      (1 : Byte).toNat (0 : Byte).toNat := by
  unfold DatetimeInRange TimeInRange
  decide

theorem witness_IllFormedFlagTermsAreIllegalRequests :
    Field.fd.fid.toNat ≤ 13 ∧ Instr.flgOff .fd ∈ [Instr.flgOn .fd, .flgOff .fd, .flgTest .fd] := by decide

theorem witness_AssemblerAcceptsMnemonicsAndAliases :
    ([1, 2, 3, 4, 5, 6, 7, 8] : List Byte).length ≤ 8 ∧ (Instr.fldGet .hours).field? ≠ none ∧
    Instr.mapDev.field? = none := by decide

end Sys2Proof.Tests
end

/-! PROOFS. The block as a whole (spec/10_state.md): every step answers, its response is a function of the request
alone (R24), the response has the shape of R23, R50 and R301, and the request ports stay the host's (R22). -/

namespace Sys2Proof.Machine

/-! ### What one step runs -/

theorem step_of_decode_ok {s : State} {i : Instr} (h : decode s.req.cmd = .ok i) : step s = exec i s := by
  simp only [step, cmdWord_eq, h]

theorem step_of_decode_error {s : State} {e : Reject} (h : decode s.req.cmd = .error e) :
    step s = raiseCause s .illegalRequest := by
  simp only [step, cmdWord_eq, h]

/-! ### The codec function of R24 -/

/-- The response to a request: the one a step gives with OUT_RESET on the response ports, which no step reads (R20). -/
def codec (q : Request) : Response := respOf (step ⟨q, outReset⟩)

theorem codec_of_decode_ok {q : Request} {i : Instr} (h : decode q.cmd = .ok i) :
    codec q = respOf (exec i ⟨q, outReset⟩) :=
  congrArg respOf (step_of_decode_ok (s := ⟨q, outReset⟩) h)

theorem codec_of_decode_error {q : Request} {e : Reject} (h : decode q.cmd = .error e) :
    codec q = errorResponse .illegalRequest := by
  rw [codec, step_of_decode_error (s := ⟨q, outReset⟩) h]
  rfl

/-- An operation's response does not depend on what the response ports held before. -/
theorem exec_answered_respOf (i : Instr) (s : State) :
    exec i s = answered s (respOf (exec i ⟨s.req, outReset⟩)) := by
  obtain ⟨r, hr⟩ : ∃ r, exec i ⟨s.req, outReset⟩ = answered ⟨s.req, outReset⟩ r := ⟨_, exec_answered i _⟩
  rw [hr, respOf_answered]
  exact exec_congr i rfl hr

/-- Every step, from every state, answers the codec's response to the request and changes nothing else. -/
theorem step_answered (s : State) : step s = answered s (codec s.req) := by
  cases h : decode s.req.cmd with
  | ok i => rw [step_of_decode_ok h, codec_of_decode_ok h, exec_answered_respOf]
  | error e => rw [step_of_decode_error h, codec_of_decode_error h]; rfl

/-- Settles O7: `codec` is the function. -/
theorem codecIsAFunctionOfTheRequest : Obligations.CodecIsAFunctionOfTheRequest :=
  ⟨codec, step_answered⟩

/-! ### Every operation and every run completes -/

/-- Settles O14: an operation's next state is the state before, responded to. -/
theorem everyOperationKeepsTheRequestPorts : Obligations.EveryOperationKeepsTheRequestPorts := by
  intro i s
  obtain ⟨r, hr⟩ := exec_next i s
  exact ⟨s.respond r, hr, respond_req s r⟩

theorem run_succ_of_step {s t : State} (h : step s = .next t) (k : Nat) : core.run (k + 1) s = core.run k t := by
  have hcore : core.step s = .next t := h
  simp only [Host.Core.run, hcore]

/-- Settles O11, by induction on the number of steps, over every start state. -/
theorem everyRunCompletes : Obligations.EveryRunCompletes := by
  intro k
  induction k with
  | zero => exact fun s => ⟨s, rfl⟩
  | succ k ih =>
    intro s
    obtain ⟨t, ht⟩ := ih (s.respond (codec s.req))
    exact ⟨t, (run_succ_of_step (step_answered s) k).trans ht⟩

/-! ### Every answer is coherent -/

/-- The outcome is a next state: `s` with a coherent response on its response ports and nothing else changed. -/
def AnswersCoherently (s : State) (o : Host.Outcome State Fault Refusal) : Prop :=
  ∃ r : Response, r.Coherent ∧ o = answered s r

theorem raiseCause_answersCoherently (s : State) (e : Cause) : AnswersCoherently s (raiseCause s e) :=
  ⟨errorResponse e, errorResponse_coherent e, rfl⟩

/-- `ok(0, 0)`, the end of the operations that name no register. -/
theorem finishOk_answersCoherently_noRegister (s : State) (bytes : List Byte) :
    AnswersCoherently s (finishOk s bytes 0 0) :=
  ⟨okResponse bytes 0 0, okResponse_coherent bytes 0 0 (by decide) (fun _ => rfl) (by decide), rfl⟩

/-- `ok(raddr, rlen)` with one to seven registers, all of which exist (R50). -/
theorem finishOk_answersCoherently_registers (s : State) (bytes : List Byte) {raddr : Byte} {rlen : BitVec 4}
    (hpos : rlen ≠ 0) (hle : rlen.toNat ≤ 7) (hreg : raddr.toNat + rlen.toNat ≤ 16) :
    AnswersCoherently s (finishOk s bytes raddr rlen) :=
  ⟨okResponse bytes raddr rlen, okResponse_coherent bytes raddr rlen hle (fun h => absurd h hpos) hreg, rfl⟩

/-- The register of a field is one of 0x00..0x0F. -/
theorem romF_reg_lt (f : Field) : (romF f).reg.toNat < 16 := by cases f <;> decide

/-- `ok(f.reg, 1)`, the end of the field and flag operations. -/
theorem finishOk_answersCoherently_fieldRegister (s : State) (bytes : List Byte) (f : Field) :
    AnswersCoherently s (finishOk s bytes (romF f).reg 1) :=
  finishOk_answersCoherently_registers s bytes (by decide) (by decide) (romF_reg_lt f)

/-- A FLAG-only operation ends with its flag's register, or with IllegalRequest for a term that names no flag (R75). -/
theorem flagOperation_answersCoherently (s : State) (bytes : List Byte) (f : Field) :
    AnswersCoherently s (if isFlag f then finishOk s bytes (romF f).reg 1 else raiseCause s .illegalRequest) := by
  split
  · exact finishOk_answersCoherently_fieldRegister s bytes f
  · exact raiseCause_answersCoherently s _

/-- Each operation ends in `ok` with no register, with a field's register, or with the block of registers its lanes
stand for, or it raises. -/
theorem exec_answersCoherently (i : Instr) (s : State) : AnswersCoherently s (exec i s) := by
  have raises := raiseCause_answersCoherently s
  have noRegister := finishOk_answersCoherently_noRegister s
  have fieldRegister := finishOk_answersCoherently_fieldRegister s
  have datetimeRegisters (bytes : List Byte) : AnswersCoherently s (finishOk s bytes 0x02 7) :=
    finishOk_answersCoherently_registers s bytes (by decide) (by decide) (by decide)
  have timeRegisters (bytes : List Byte) : AnswersCoherently s (finishOk s bytes 0x02 3) :=
    finishOk_answersCoherently_registers s bytes (by decide) (by decide) (by decide)
  have alarmRegisters (bytes : List Byte) : AnswersCoherently s (finishOk s bytes 0x09 4) :=
    finishOk_answersCoherently_registers s bytes (by decide) (by decide) (by decide)
  cases i with
  | bcdDec =>
    simp only [exec, execBcdDec]
    split
    · exact noRegister _
    · exact raises _
  | bcdEnc =>
    simp only [exec, execBcdEnc]
    split
    · exact raises _
    · split
      · exact raises _
      · exact noRegister _
  | fldGet f =>
    simp only [exec, execFldGet]
    split
    · exact fieldRegister _ f
    · exact raises _
  | fldPut f =>
    simp only [exec, execFldPut]
    split
    · exact fieldRegister _ f
    · exact raises _
  | flgOn f => exact flagOperation_answersCoherently s _ f
  | flgOff f => exact flagOperation_answersCoherently s _ f
  | flgTest f => exact flagOperation_answersCoherently s _ f
  | dtUnpack =>
    simp only [exec, execDtUnpack]
    split
    · exact datetimeRegisters _
    · exact raises _
  | dtPack =>
    simp only [exec, execDtPack]
    split
    · exact datetimeRegisters _
    · exact raises _
  | tmPack =>
    simp only [exec, execTmPack]
    split
    · exact timeRegisters _
    · exact raises _
  | almUnpack =>
    simp only [exec, execAlmUnpack]
    split
    · exact alarmRegisters _
    · exact raises _
  | almPack =>
    simp only [exec, execAlmPack]
    split
    · exact raises _
    · split
      · exact alarmRegisters _
      · exact raises _
  | mapField f => exact noRegister _
  | mapReg =>
    simp only [exec, execMapReg]
    split
    · exact noRegister _
    · exact raises _
  | mapDev => exact noRegister _

theorem step_answersCoherently (s : State) : AnswersCoherently s (step s) := by
  cases h : decode s.req.cmd with
  | ok i => exact step_of_decode_ok h ▸ exec_answersCoherently i s
  | error e => exact step_of_decode_error h ▸ raiseCause_answersCoherently s _

/-- Settles O8: a step's next state is the state before with a coherent response. -/
theorem everyAnswerIsCoherent : Obligations.EveryAnswerIsCoherent := by
  intro s t h
  obtain ⟨r, hr, hs⟩ := step_answersCoherently s
  obtain rfl : s.respond r = t := Host.Outcome.next.inj (hs.symm.trans h)
  exact ⟨respond_req s r, hr⟩

end Sys2Proof.Machine

/-! PROOFS. Repeated requests (spec/20_memory.md R54). -/

namespace Sys2Proof.Machine

theorem eq_respond_of_step {s t : State} (h : step s = .next t) : t = s.respond (codec s.req) :=
  Host.Outcome.next.inj (h.symm.trans (step_answered s))

/-- A state that already shows the codec's response to its own request is a fixed point of `step`: the request ports,
and so the response, are the same again. -/
theorem step_respond_codec (s : State) : step (s.respond (codec s.req)) = .next (s.respond (codec s.req)) := by
  have again : step (s.respond (codec s.req)) = .next ((s.respond (codec s.req)).respond (codec s.req)) :=
    step_answered (s.respond (codec s.req))
  rwa [respond_respond] at again

/-- Settles O12: the state a step reaches shows the codec's response, and a step keeps such a state. -/
theorem repeatedRequestRepeatsTheResponse : Obligations.RepeatedRequestRepeatsTheResponse := by
  intro s t h
  obtain rfl := eq_respond_of_step h
  exact step_respond_codec s

end Sys2Proof.Machine

/-! PROOFS. Encoding and decoding (spec/30_encoding.md): `encode` and `decode` are inverse to each other (R70 to R72,
R78), exactly 147 words are legal (R75), and what a step runs is the operation its word decodes to. -/

namespace Sys2Proof

open Machine

/-! ### A word and its three parts -/

/-- A word is its OPC, RSV and FID put together again (R70). -/
theorem cmdOpc_append_cmdRsv_append_cmdFid (w : Word) : cmdOpc w ++ cmdRsv w ++ cmdFid w = w := by
  simp only [cmdOpc, cmdRsv, cmdFid]
  rw [BitVec.extractLsb'_append_extractLsb'_eq_extractLsb' (by rfl),
    BitVec.extractLsb'_append_extractLsb'_eq_extractLsb' (by rfl)]
  exact BitVec.extractLsb'_eq_self

/-- The layout of R70 for any operation. -/
theorem encode_layout (i : Instr) : Laws.Layout.Statement i := by
  cases i with
  | bcdDec => exact Laws.Layout.bcdDec
  | bcdEnc => exact Laws.Layout.bcdEnc
  | fldGet f => exact Laws.Layout.fldGet f
  | fldPut f => exact Laws.Layout.fldPut f
  | flgOn f => exact Laws.Layout.flgOn f
  | flgOff f => exact Laws.Layout.flgOff f
  | flgTest f => exact Laws.Layout.flgTest f
  | dtUnpack => exact Laws.Layout.dtUnpack
  | dtPack => exact Laws.Layout.dtPack
  | tmPack => exact Laws.Layout.tmPack
  | almUnpack => exact Laws.Layout.almUnpack
  | almPack => exact Laws.Layout.almPack
  | mapField f => exact Laws.Layout.mapField f
  | mapReg => exact Laws.Layout.mapReg
  | mapDev => exact Laws.Layout.mapDev

/-- A word that carries an operation's parts is that operation's word (R70). -/
theorem encode_eq_of_parts {w : Word} {i : Instr} (hopc : cmdOpc w = i.opc) (hrsv : cmdRsv w = 0)
    (hfid : cmdFid w = i.fidBits) : encode i = w := by
  rw [encode, ← hopc, ← hrsv, ← hfid, cmdOpc_append_cmdRsv_append_cmdFid]

/-! ### The decoder reads the encoder's words -/

/-- The parts of the word select the operation's own arm of the decoder, whose operand check then passes. -/
theorem decode_encode {i : Instr} (h : i.wellFormed = true) : decode (encode i) = .ok i := by
  obtain ⟨hopc, hrsv, hfid⟩ := encode_layout i
  rw [decode, hopc, hrsv, hfid]
  cases i with
  | bcdDec => exact takeNoField_zero _
  | bcdEnc => exact takeNoField_zero _
  | fldGet f => exact takeField_fid f _
  | fldPut f => exact takeField_fid f _
  | flgOn f => exact takeFlag_fid f _ h
  | flgOff f => exact takeFlag_fid f _ h
  | flgTest f => exact takeFlag_fid f _ h
  | dtUnpack => exact takeNoField_zero _
  | dtPack => exact takeNoField_zero _
  | tmPack => exact takeNoField_zero _
  | almUnpack => exact takeNoField_zero _
  | almPack => exact takeNoField_zero _
  | mapField f => exact takeField_fid f _
  | mapReg => exact takeNoField_zero _
  | mapDev => exact takeNoField_zero _

/-- Settles O1: the word's parts are the operation's own, and the decoder dispatches on them. -/
theorem decodeOfEncode : Obligations.DecodeOfEncode := fun _ h => decode_encode h

/-! ### The encoder gives back every legal word -/

/-- The arm of an operation that takes no field accepts its own word only. -/
theorem encode_of_takeNoField_ok {w : Word} {i j : Instr} (h : takeNoField (cmdFid w) i = .ok j)
    (hrsv : cmdRsv w = 0) (hopc : (cmdOpc w).toNat = i.opc.toNat) (hfield : i.fidBits = 0)
    (hwf : i.wellFormed = true) : encode j = w ∧ j.wellFormed = true := by
  obtain ⟨hfid, rfl⟩ := takeNoField_ok h
  exact ⟨encode_eq_of_parts (BitVec.eq_of_toNat_eq hopc) hrsv (hfid.trans hfield.symm), hwf⟩

/-- The arm of an operation that takes any field accepts the words of that operation only. -/
theorem encode_of_takeField_ok {w : Word} {mk : Field → Instr} {j : Instr} (h : takeField (cmdFid w) mk = .ok j)
    (hrsv : cmdRsv w = 0) (hopc : ∀ f, (cmdOpc w).toNat = (mk f).opc.toNat)
    (hfield : ∀ f, (mk f).fidBits = f.fid) (hwf : ∀ f, (mk f).wellFormed = true) :
    encode j = w ∧ j.wellFormed = true := by
  obtain ⟨f, hfid, rfl⟩ := takeField_ok h
  exact ⟨encode_eq_of_parts (BitVec.eq_of_toNat_eq (hopc f)) hrsv (hfid.symm.trans (hfield f).symm), hwf f⟩

/-- The arm of a FLAG-only operation accepts the words of that operation with a FLAG field only. -/
theorem encode_of_takeFlag_ok {w : Word} {mk : Field → Instr} {j : Instr} (h : takeFlag (cmdFid w) mk = .ok j)
    (hrsv : cmdRsv w = 0) (hopc : ∀ f, (cmdOpc w).toNat = (mk f).opc.toNat)
    (hfield : ∀ f, (mk f).fidBits = f.fid) (hwf : ∀ f, (mk f).wellFormed = isFlag f) :
    encode j = w ∧ j.wellFormed = true := by
  obtain ⟨f, hfid, hflag, rfl⟩ := takeFlag_ok h
  exact ⟨encode_eq_of_parts (BitVec.eq_of_toNat_eq (hopc f)) hrsv (hfid.symm.trans (hfield f).symm),
    (hwf f).trans hflag⟩

/-- Arm by arm of the decoder: RSV is zero, OPC is the arm's, and the operand check gives the FID. -/
theorem encode_of_decode_ok {w : Word} {i : Instr} (h : decode w = .ok i) : encode i = w ∧ i.wellFormed = true := by
  unfold decode at h
  split at h
  · cases h
  · next hrsv =>
    have hrsv : cmdRsv w = 0 := by simpa using hrsv
    split at h
    · next hopc => exact encode_of_takeNoField_ok h hrsv hopc rfl rfl
    · next hopc => exact encode_of_takeNoField_ok h hrsv hopc rfl rfl
    · next hopc => exact encode_of_takeField_ok h hrsv (fun _ => hopc) (fun _ => rfl) (fun _ => rfl)
    · next hopc => exact encode_of_takeField_ok h hrsv (fun _ => hopc) (fun _ => rfl) (fun _ => rfl)
    · next hopc => exact encode_of_takeFlag_ok h hrsv (fun _ => hopc) (fun _ => rfl) (fun _ => rfl)
    · next hopc => exact encode_of_takeFlag_ok h hrsv (fun _ => hopc) (fun _ => rfl) (fun _ => rfl)
    · next hopc => exact encode_of_takeFlag_ok h hrsv (fun _ => hopc) (fun _ => rfl) (fun _ => rfl)
    · next hopc => exact encode_of_takeNoField_ok h hrsv hopc rfl rfl
    · next hopc => exact encode_of_takeNoField_ok h hrsv hopc rfl rfl
    · next hopc => exact encode_of_takeNoField_ok h hrsv hopc rfl rfl
    · next hopc => exact encode_of_takeNoField_ok h hrsv hopc rfl rfl
    · next hopc => exact encode_of_takeNoField_ok h hrsv hopc rfl rfl
    · next hopc => exact encode_of_takeField_ok h hrsv (fun _ => hopc) (fun _ => rfl) (fun _ => rfl)
    · next hopc => exact encode_of_takeNoField_ok h hrsv hopc rfl rfl
    · next hopc => exact encode_of_takeNoField_ok h hrsv hopc rfl rfl
    · cases h

/-- Settles O2: the decoder's arms determine all sixteen bits of the words they accept. -/
theorem encodeOfDecode : Obligations.EncodeOfDecode := fun _ _ h => encode_of_decode_ok h

/-- What the decoder does, said once: it accepts exactly the words of the well-formed operations. -/
theorem decode_eq_ok_iff {w : Word} {i : Instr} : decode w = .ok i ↔ encode i = w ∧ i.wellFormed = true := by
  constructor
  · exact encode_of_decode_ok
  · rintro ⟨rfl, h⟩
    exact decode_encode h

/-! ### The legal words, counted -/

theorem mem_allInstrs (i : Instr) : i ∈ allInstrs := by
  cases i <;> simp [allInstrs, mem_fieldsByFid]

theorem fieldsByFid_nodup : fieldsByFid.Nodup := by decide

/-- The groups of `allInstrs` are lists of different constructors, each over the different fields. -/
theorem allInstrs_nodup : allInstrs.Nodup := by
  simp [allInstrs, List.nodup_append, List.nodup_map_iff_inj_on fieldsByFid_nodup, or_imp, forall_and]

/-- Two well-formed operations with one word are one operation: the decoder tells them apart. -/
theorem eq_of_encode_eq {i j : Instr} (hi : i.wellFormed = true) (hj : j.wellFormed = true)
    (h : encode i = encode j) : i = j := by
  have hd : Except.ok i = decode (encode j) := h ▸ (decode_encode hi).symm
  exact Except.ok.inj (hd.trans (decode_encode hj))

/-- The words of the well-formed operations. -/
def legalWords : List Word := (allInstrs.filter Instr.wellFormed).map encode

theorem mem_legalWords_iff {w : Word} : w ∈ legalWords ↔ ∃ i, decode w = .ok i := by
  simp [legalWords, decode_eq_ok_iff, mem_allInstrs, and_comm]

theorem legalWords_nodup : legalWords.Nodup :=
  (allInstrs_nodup.filter _).map_on fun _ hi _ hj =>
    eq_of_encode_eq (List.of_mem_filter hi) (List.of_mem_filter hj)

/-- Nine operations without a field, three with any of 30 fields, three with any of 16 FLAG fields. -/
theorem legalWords_length : legalWords.length = 147 := by rfl

/-- Settles O3: the list is the words of the well-formed operations. -/
theorem legalWordsAre147 : Obligations.LegalWordsAre147 :=
  ⟨legalWords, legalWords_nodup, legalWords_length, fun _ => mem_legalWords_iff⟩

/-! ### Words of the opcode map, and what a step runs -/

/-- Settles O5: the decoder evaluates each word to its operation. -/
theorem opcodeMapWords : Obligations.OpcodeMapWords :=
  ⟨rfl, rfl, rfl, rfl, rfl, rfl, rfl, rfl, rfl, rfl, rfl, rfl, rfl, rfl, rfl⟩

/-- Settles O6: `step` decodes first, and runs what it decoded. -/
theorem stepRunsTheDecodedOperation : Obligations.StepRunsTheDecodedOperation := fun _ _ h => step_of_decode_ok h

/-! ### FLAG-only terms of a field that is no FLAG (log entry 7) -/

theorem isFlag_eq_false {f : Field} (h : f.fid.toNat ≤ 13) : isFlag f = false := by
  rw [← Bool.not_eq_true, isFlag_iff]
  omega

theorem decode_ne_ok_of_not_wellFormed {i : Instr} (h : i.wellFormed = false) (w : Word) : decode w ≠ .ok i := by
  simp [decode_eq_ok_iff, h]

/-- Settles O53: such a term is not well formed, and its operation checks the field's kind first. -/
theorem illFormedFlagTermsAreIllegalRequests : Obligations.IllFormedFlagTermsAreIllegalRequests := by
  intro f i s hfid hi
  have hflag := isFlag_eq_false hfid
  simp only [List.mem_cons, List.not_mem_nil, or_false] at hi
  obtain rfl | rfl | rfl := hi
  · exact ⟨decode_ne_ok_of_not_wellFormed hflag, if_neg (by simp [hflag])⟩
  · exact ⟨decode_ne_ok_of_not_wellFormed hflag, if_neg (by simp [hflag])⟩
  · exact ⟨decode_ne_ok_of_not_wellFormed hflag, if_neg (by simp [hflag])⟩

end Sys2Proof

/-! PROOFS. Which IN bytes an operation reads (spec/30_encoding.md R71, R74). -/

namespace Sys2Proof.Machine

/-- Both outcomes are answers of one response, each at its own state. -/
def SameAnswer (s s' : State) (o o' : Host.Outcome State Fault Refusal) : Prop :=
  ∃ r, o = answered s r ∧ o' = answered s' r

theorem finishOk_sameAnswer (s s' : State) (bytes : List Byte) (raddr : Byte) (rlen : BitVec 4) :
    SameAnswer s s' (finishOk s bytes raddr rlen) (finishOk s' bytes raddr rlen) :=
  ⟨okResponse bytes raddr rlen, rfl, rfl⟩

theorem raiseCause_sameAnswer (s s' : State) (e : Cause) : SameAnswer s s' (raiseCause s e) (raiseCause s' e) :=
  ⟨errorResponse e, rfl, rfl⟩

theorem SameAnswer.ite {s s' : State} {o₁ o₁' o₂ o₂' : Host.Outcome State Fault Refusal} {c : Prop} [Decidable c]
    (h₁ : SameAnswer s s' o₁ o₁') (h₂ : SameAnswer s s' o₂ o₂') :
    SameAnswer s s' (if c then o₁ else o₂) (if c then o₁' else o₂') := by
  split
  · exact h₁
  · exact h₂

/-- Each meaning is written over the lanes its opcode reads, so after equating those lanes both sides take the same
branch, and every branch ends in `finishOk` or `raiseCause`. -/
theorem exec_sameAnswer (i : Instr) {s s' : State} (h : ∀ k, readsLane i k = true → s.inByte k = s'.inByte k) :
    SameAnswer s s' (exec i s) (exec i s') := by
  have h0 : readsLane i 0 = true → s.in0 = s'.in0 := h 0
  have h1 : readsLane i 1 = true → s.in1 = s'.in1 := h 1
  have h2 : readsLane i 2 = true → s.in2 = s'.in2 := h 2
  have h3 : readsLane i 3 = true → s.in3 = s'.in3 := h 3
  have h4 : readsLane i 4 = true → s.in4 = s'.in4 := h 4
  have h5 : readsLane i 5 = true → s.in5 = s'.in5 := h 5
  have h6 : readsLane i 6 = true → s.in6 = s'.in6 := h 6
  have h7 : readsLane i 7 = true → s.in7 = s'.in7 := h 7
  have ok := finishOk_sameAnswer s s'
  have err := raiseCause_sameAnswer s s'
  cases i with
  | bcdDec =>
    simp only [exec, execBcdDec, h0 rfl, h1 rfl]
    exact .ite (ok ..) (err _)
  | bcdEnc =>
    simp only [exec, execBcdEnc, h0 rfl, h1 rfl]
    exact .ite (err _) (.ite (err _) (ok ..))
  | fldGet f =>
    simp only [exec, execFldGet, h0 rfl]
    split
    · exact ok ..
    · exact err _
  | fldPut f =>
    simp only [exec, execFldPut, h0 rfl, h1 rfl]
    split
    · exact ok ..
    · exact err _
  | flgOn f =>
    simp only [exec, execFlgOn, h0 rfl]
    exact .ite (ok ..) (err _)
  | flgOff f =>
    simp only [exec, execFlgOff, h0 rfl]
    exact .ite (ok ..) (err _)
  | flgTest f =>
    simp only [exec, execFlgTest, h0 rfl]
    exact .ite (ok ..) (err _)
  | dtUnpack =>
    simp only [exec, execDtUnpack, datetimeLanes, timeLanes, h0 rfl, h1 rfl, h2 rfl, h3 rfl, h4 rfl, h5 rfl, h6 rfl]
    split
    · exact ok ..
    · exact err _
  | dtPack =>
    simp only [exec, execDtPack, datetimeLanes, timeLanes, h0 rfl, h1 rfl, h2 rfl, h3 rfl, h4 rfl, h5 rfl, h6 rfl]
    split
    · exact ok ..
    · exact err _
  | tmPack =>
    simp only [exec, execTmPack, timeLanes, h0 rfl, h1 rfl, h2 rfl]
    split
    · exact ok ..
    · exact err _
  | almUnpack =>
    simp only [exec, execAlmUnpack, alarmLanes, h0 rfl, h1 rfl, h2 rfl, h3 rfl]
    split
    · exact ok ..
    · exact err _
  | almPack =>
    simp only [exec, execAlmPack, alarmLanes, alarmEnables, h0 rfl, h1 rfl, h2 rfl, h3 rfl, h4 rfl, h5 rfl, h6 rfl,
      h7 rfl]
    refine .ite (err _) ?_
    split
    · exact ok ..
    · exact err _
  | mapField f => exact ok ..
  | mapReg =>
    simp only [exec, execMapReg, h0 rfl]
    split
    · exact ok ..
    · exact err _
  | mapDev => exact ok ..

/-- Settles O13: one response answers both states, and the first state's is `t`'s. -/
theorem unreadLanesHaveNoEffect : Obligations.UnreadLanesHaveNoEffect := by
  intro i s s' t h ht
  obtain ⟨r, hs, hs'⟩ := exec_sameAnswer i h
  obtain rfl : s.respond r = t := Host.Outcome.next.inj (hs.symm.trans ht)
  exact hs'

end Sys2Proof.Machine

/-! PROOFS. The assembler and the single-request aliases (spec/30_encoding.md R78, R79). -/

namespace Sys2Proof.Machine

/-! ### Names -/

/-- The mnemonics in the order of their opcodes (R71). -/
def mnemonics : List String :=
  ["BCD_DEC", "BCD_ENC", "FLD_GET", "FLD_PUT", "FLG_ON", "FLG_OFF", "FLG_TEST", "DT_UNPACK", "DT_PACK", "TM_PACK",
   "ALM_UNPACK", "ALM_PACK", "MAP_FIELD", "MAP_REG", "MAP_DEV"]

theorem mnemonics_getElem?_opc (i : Instr) : mnemonics[i.opc.toNat]? = some (mnemonicOf i) := by cases i <;> rfl

theorem mnemonics_nodup : mnemonics.Nodup := by decide

theorem mnemonicOf_mem_mnemonics (i : Instr) : mnemonicOf i ∈ mnemonics :=
  List.mem_of_getElem? (mnemonics_getElem?_opc i)

/-- A mnemonic names one opcode. -/
theorem opc_eq_of_mnemonicOf_eq {i j : Instr} (h : mnemonicOf i = mnemonicOf j) : i.opc = j.opc := by
  have hget : mnemonics[i.opc.toNat]? = mnemonics[j.opc.toNat]? := by simp only [mnemonics_getElem?_opc, h]
  obtain ⟨hlt, -⟩ := List.getElem?_eq_some_iff.1 (mnemonics_getElem?_opc i)
  exact BitVec.eq_of_toNat_eq ((List.getElem?_inj hlt mnemonics_nodup).1 hget)

theorem fieldName_injective : Function.Injective fieldName := by
  have hnodup : (fieldsByFid.map fieldName).Nodup := by decide
  exact fun f g => List.inj_on_of_nodup_map hnodup (mem_fieldsByFid f) (mem_fieldsByFid g)

theorem mem_allPseudos (p : Pseudo) : p ∈ allPseudos := by
  cases p with
  | almEn a => cases a <;> decide
  | almDis a => cases a <;> decide
  | _ => decide

/-- A pseudo-instruction's name and field name, as they are written (R79). -/
def writtenPseudo (p : Pseudo) : String × Option String := (pseudoName p, (pseudoField p).map fieldName)

theorem writtenPseudo_injective : Function.Injective writtenPseudo := by
  have hnodup : (allPseudos.map writtenPseudo).Nodup := by decide
  exact fun p q => List.inj_on_of_nodup_map hnodup (mem_allPseudos p) (mem_allPseudos q)

theorem pseudoName_not_mem_mnemonics (p : Pseudo) : pseudoName p ∉ mnemonics := by
  have hall : ∀ q ∈ allPseudos, pseudoName q ∉ mnemonics := by decide
  exact hall p (mem_allPseudos p)

/-- No pseudo-instruction is written like a mnemonic, whatever follows it. -/
theorem pseudoName_ne_mnemonicOf (p : Pseudo) (i : Instr) : pseudoName p ≠ mnemonicOf i := fun h =>
  pseudoName_not_mem_mnemonics p (h ▸ mnemonicOf_mem_mnemonics i)

/-- Whether a field is taken depends on the opcode alone (R72). -/
theorem field?_isSome_eq (i : Instr) : i.field?.isSome = decide (i.opc ∈ ([2, 3, 4, 5, 6, 12] : List (BitVec 4))) := by
  cases i <;> rfl

theorem encode_congr {i j : Instr} (hopc : i.opc = j.opc) (hfield : i.field? = j.field?) : encode i = encode j := by
  simp only [encode, Instr.fidBits, hopc, hfield]

/-! ### What a written line names -/

/-- What the assembler's search finds carries the mnemonic and the field name it looked for. -/
theorem instrOfText_eq_some {name : String} {field : Option String} {i : Instr} (h : instrOfText name field = some i) :
    mnemonicOf i = name ∧ i.field?.map fieldName = field := by
  simpa using List.find?_some h

theorem instrOfText_eq_none_iff {name : String} {field : Option String} :
    instrOfText name field = none ↔ ∀ i, mnemonicOf i = name → i.field?.map fieldName ≠ field := by
  simp [instrOfText, mem_allInstrs]

theorem pseudoOfText_eq_some {name : String} {field : Option String} {p : Pseudo}
    (h : pseudoOfText name field = some p) : writtenPseudo p = (name, field) := by
  simpa [writtenPseudo] using List.find?_some h

theorem pseudoOfText_eq_none_iff {name : String} {field : Option String} :
    pseudoOfText name field = none ↔ ∀ p, writtenPseudo p ≠ (name, field) := by
  simp [pseudoOfText, mem_allPseudos, writtenPseudo]

/-- A mnemonic with its field name finds an operation with the same word. -/
theorem instrOfText_mnemonicOf (i : Instr) :
    ∃ j, instrOfText (mnemonicOf i) (i.field?.map fieldName) = some j ∧ encode j = encode i := by
  cases h : instrOfText (mnemonicOf i) (i.field?.map fieldName) with
  | none => exact absurd rfl (instrOfText_eq_none_iff.1 h i rfl)
  | some j =>
    obtain ⟨hname, hfield⟩ := instrOfText_eq_some h
    exact ⟨j, rfl, encode_congr (opc_eq_of_mnemonicOf_eq hname) (Option.map_injective fieldName_injective hfield)⟩

/-- A mnemonic does not assemble with a field name it does not take, or without one it takes. -/
theorem instrOfText_mnemonicOf_eq_none {i : Instr} {field : Option String} (h : i.field?.isSome ≠ field.isSome) :
    instrOfText (mnemonicOf i) field = none := by
  rw [instrOfText_eq_none_iff]
  rintro j hname rfl
  apply h
  rw [Option.isSome_map, field?_isSome_eq, field?_isSome_eq, opc_eq_of_mnemonicOf_eq hname]

theorem instrOfText_pseudoName (p : Pseudo) (field : Option String) : instrOfText (pseudoName p) field = none :=
  instrOfText_eq_none_iff.2 fun i h => absurd h.symm (pseudoName_ne_mnemonicOf p i)

theorem pseudoOfText_pseudoName (p : Pseudo) : pseudoOfText (pseudoName p) ((pseudoField p).map fieldName) = some p := by
  cases h : pseudoOfText (pseudoName p) ((pseudoField p).map fieldName) with
  | none => exact absurd rfl (pseudoOfText_eq_none_iff.1 h p)
  | some q => rw [writtenPseudo_injective (pseudoOfText_eq_some h)]

theorem pseudoOfText_mnemonicOf (i : Instr) (field : Option String) : pseudoOfText (mnemonicOf i) field = none :=
  pseudoOfText_eq_none_iff.2 fun p h => pseudoName_ne_mnemonicOf p i (Prod.mk.inj h).1

theorem operationOfText_pseudoName (p : Pseudo) :
    operationOfText (pseudoName p) ((pseudoField p).map fieldName) = some (expandPseudo p) := by
  simp only [operationOfText, instrOfText_pseudoName, pseudoOfText_pseudoName, Option.map_some]

theorem operationOfText_mnemonicOf_eq_none {i : Instr} {field : Option String} (h : i.field?.isSome ≠ field.isSome) :
    operationOfText (mnemonicOf i) field = none := by
  simp only [operationOfText, instrOfText_mnemonicOf_eq_none h, pseudoOfText_mnemonicOf, Option.map_none]

/-! ### What a written line assembles to -/

theorem assemble_of_operation {name : String} {field : Option String} {i : Instr} {ins : List Byte}
    (h : operationOfText name field = some i) (hlen : ins.length ≤ 8) :
    assemble name field ins = some ⟨encode i, lanesOf ins⟩ := by
  simp only [assemble, hlen, if_true, h, Option.map_some]

theorem assemble_of_no_operation {name : String} {field : Option String} (h : operationOfText name field = none)
    (ins : List Byte) : assemble name field ins = none := by
  simp only [assemble, h, Option.map_none, ite_self]

theorem assemble_mnemonicOf (i : Instr) {ins : List Byte} (hlen : ins.length ≤ 8) :
    assemble (mnemonicOf i) (i.field?.map fieldName) ins = some ⟨encode i, lanesOf ins⟩ := by
  obtain ⟨j, hj, hword⟩ := instrOfText_mnemonicOf i
  have hop : operationOfText (mnemonicOf i) (i.field?.map fieldName) = some j := by simp only [operationOfText, hj]
  rw [assemble_of_operation hop hlen, hword]

/-- Settles O54: mnemonics and aliases are different names, each with its own field names. -/
theorem assemblerAcceptsMnemonicsAndAliases : Obligations.AssemblerAcceptsMnemonicsAndAliases := by
  refine ⟨fun i _ => assemble_mnemonicOf i, fun p _ => assemble_of_operation (operationOfText_pseudoName p), ?_, ?_⟩
  · intro i ins hfield
    exact assemble_of_no_operation (operationOfText_mnemonicOf_eq_none (by simpa using hfield)) ins
  · intro i name ins hfield
    exact assemble_of_no_operation (operationOfText_mnemonicOf_eq_none (by simp [hfield])) ins

/-! ### The words of the aliases -/

/-- Settles O43, by evaluating the encoder on the table of R79. -/
theorem pseudoInstructionWords : Obligations.PseudoInstructionWords := by
  unfold Obligations.PseudoInstructionWords
  decide

end Sys2Proof.Machine

/-! PROOFS. Words that name no operation (spec/60_exceptions.md R302) and the issued word of any term: what a step does
with either, said once. -/

namespace Sys2Proof

open Machine

/-! ### A word's numbers -/

theorem toNat_encode (i : Instr) : (encode i).toNat = 4096 * i.opc.toNat + i.fidBits.toNat := by
  have hfid : i.fidBits.toNat < 2 ^ 5 := i.fidBits.isLt
  rw [encode, BitVec.toNat_append, BitVec.toNat_append, ← Nat.shiftLeft_add_eq_or_of_lt hfid]
  simp only [BitVec.ofNat_eq_ofNat, BitVec.toNat_ofNat, Nat.zero_mod, Nat.or_zero, Nat.shiftLeft_eq]
  omega

theorem opcOf_encode (i : Instr) : opcOf (encode i) = i.opc.toNat := by
  have hfid : i.fidBits.toNat < 32 := i.fidBits.isLt
  rw [opcOf, toNat_encode]
  omega

theorem lowOf_encode (i : Instr) : lowOf (encode i) = i.fidBits.toNat := by
  have hfid : i.fidBits.toNat < 32 := i.fidBits.isLt
  rw [lowOf, toNat_encode]
  omega

theorem fidBits_of_field?_eq_none {i : Instr} (h : i.field? = none) : i.fidBits = 0 := by
  simp only [Instr.fidBits, h]

/-- FID 30 and 31 are reserved (R151), and an operation without a field has FID 0 (R72). -/
theorem fidBits_lt (i : Instr) : i.fidBits.toNat < 30 := by
  cases h : i.field? with
  | none => simp [fidBits_of_field?_eq_none h]
  | some f => simpa only [Instr.fidBits, h] using fid_lt f

/-! ### Words that name no operation -/

theorem step_failed_of_not_encode {s : State} (h : ∀ i, encode i ≠ s.req.cmd) : step s = failed s .illegalRequest := by
  cases hd : decode s.req.cmd with
  | ok i => exact absurd (encode_of_decode_ok hd).1 (h i)
  | error e => exact (step_of_decode_error hd).trans (raiseCause_failed s _)

/-- R302 (a) and (c): with RSV not 0, or with FID 30 or 31, no OPC names an operation. -/
theorem step_failed_of_thirty_le_lowOf {s : State} (h : 30 ≤ lowOf s.req.cmd) : step s = failed s .illegalRequest := by
  refine step_failed_of_not_encode fun i hi => ?_
  have hlow := lowOf_encode i
  have hfid := fidBits_lt i
  rw [hi] at hlow
  omega

/-- R302 (a) and (e): the OPC of an operation that takes no field, with RSV or FID not 0. -/
theorem step_failed_of_lowOf_ne_zero {s : State} {i : Instr} (hfield : i.field? = none)
    (hopc : opcOf s.req.cmd = i.opc.toNat) (hlow : lowOf s.req.cmd ≠ 0) : step s = failed s .illegalRequest := by
  refine step_failed_of_not_encode fun j hj => hlow ?_
  have hsame : j.opc = i.opc := BitVec.eq_of_toNat_eq (by rw [← opcOf_encode j, hj, hopc])
  have hnone : j.field? = none := by
    have htaken := field?_isSome_eq j
    rw [hsame, ← field?_isSome_eq i, hfield] at htaken
    simpa using htaken
  rw [← hj, lowOf_encode, fidBits_of_field?_eq_none hnone]
  rfl

/-! ### The word of an ill-formed term (log entry 7) -/

theorem takeFlag_fid_of_not_flag {f : Field} (h : isFlag f = false) (mk : Field → Instr) :
    takeFlag f.fid mk = .error .notAFlag := by
  simp [takeFlag, h]

theorem decode_encode_of_not_wellFormed {i : Instr} (h : i.wellFormed = false) :
    decode (encode i) = .error .notAFlag := by
  obtain ⟨hopc, hrsv, hfid⟩ := encode_layout i
  rw [decode, hopc, hrsv, hfid]
  cases i with
  | flgOn f => exact takeFlag_fid_of_not_flag h _
  | flgOff f => exact takeFlag_fid_of_not_flag h _
  | flgTest f => exact takeFlag_fid_of_not_flag h _
  | _ => cases h

theorem exec_of_not_wellFormed {i : Instr} (h : i.wellFormed = false) (s : State) :
    exec i s = raiseCause s .illegalRequest := by
  cases i with
  | flgOn f => exact if_neg (ne_true_of_eq_false h)
  | flgOff f => exact if_neg (ne_true_of_eq_false h)
  | flgTest f => exact if_neg (ne_true_of_eq_false h)
  | _ => cases h

/-- A term's own word runs that term, ill-formed terms included: those raise IllegalRequest either way. -/
theorem step_of_cmd_eq_encode {s : State} {i : Instr} (h : s.req.cmd = encode i) : step s = exec i s := by
  cases hwf : i.wellFormed with
  | true => exact step_of_decode_ok (h ▸ decode_encode hwf)
  | false =>
    rw [exec_of_not_wellFormed hwf]
    exact step_of_decode_error (h ▸ decode_encode_of_not_wellFormed hwf)

end Sys2Proof

/-! PROOFS. The register map operations and the ROM (spec/40_register_map.md R118, R153 to R155). -/

namespace Sys2Proof.Machine

/-! ### MAP_FIELD -/

theorem encode_mapField (f : Field) : encode (.mapField f) = 0xC000#16 ||| f.fid.setWidth 16 := by cases f <;> rfl

/-- Settles O39: each field's row is its ROM descriptor, read out entry by entry. -/
theorem mapFieldResult : Obligations.MapFieldResult := by
  refine ⟨fun f => ?_, fun f s => ⟨_, ?_, finishOk_answered ..⟩, fun s _ => step_failed_of_thirty_le_lowOf⟩
  · rw [← encode_mapField]
    exact decode_encode rfl
  · cases f <;> rfl

/-! ### MAP_REG -/

/-- The four entries MAP_REG reads out of a register descriptor (R154). -/
def RegDesc.row (r : RegDesc) : List Byte := [r.used, r.dc, r.mbz, r.nfields]

/-- R100: exactly the addresses 0x00 to 0x0F have a register descriptor. -/
theorem romR_eq_none_iff (a : Byte) : romR a = none ↔ 0x0F < a.toNat :=
  List.getElem?_eq_none_iff

theorem exec_mapReg_of_romR_some {s : State} {r : RegDesc} (h : romR s.req.ins.l0 = some r) :
    exec .mapReg s = answered s ⟨.ok, lanesOf r.row, 0, 0⟩ := by
  simp only [exec, execMapReg, h]
  rfl

theorem exec_mapReg_of_romR_none {s : State} (h : romR s.req.ins.l0 = none) :
    exec .mapReg s = failed s .invalidArgument := by
  simp only [exec, execMapReg, h]
  rfl

/-- Settles O40: the rows are the ROM's register descriptors, and the ROM has no other. -/
theorem mapRegResult : Obligations.MapRegResult := by
  refine ⟨rfl, fun s h => ?_, fun s h => exec_mapReg_of_romR_none ((romR_eq_none_iff _).2 h),
    fun s => step_failed_of_lowOf_ne_zero (i := .mapReg) rfl⟩
  cases hr : romR s.req.ins.l0 with
  | none => exact absurd ((romR_eq_none_iff _).1 hr) (by omega)
  | some r =>
    have hrow : (romRTable.map RegDesc.row)[s.req.ins.l0.toNat]? = some r.row := by
      rw [List.getElem?_map]
      exact congrArg (Option.map RegDesc.row) hr
    exact ⟨r.row, hrow, exec_mapReg_of_romR_some hr⟩

/-! ### MAP_DEV -/

/-- Settles O41: the constants do not depend on the request. -/
theorem mapDevResult : Obligations.MapDevResult :=
  ⟨rfl, fun _ => rfl, fun _ => step_failed_of_lowOf_ne_zero (i := .mapDev) rfl⟩

/-! ### The ROM's bits -/

/-- Settles O42, by evaluating the ROM at each of the sixteen addresses. -/
theorem registerBitsArePartitioned : Obligations.RegisterBitsArePartitioned := by
  intro a ha
  obtain ⟨n, rfl⟩ : ∃ n : Fin 16, a = BitVec.ofNat 8 n.val :=
    ⟨⟨a.toNat, by omega⟩, by simp⟩
  fin_cases n <;> exact ⟨_, rfl, by decide⟩

end Sys2Proof.Machine

/-! PROOFS. No host sequence sets a must-be-zero bit (spec/93_implementation_defined.md I18). Only registers 0x00 and
0x01 have such bits. A read-modify-write passes them through, since no field's mask holds one (R118, R182); the packed
writes start at 0x02 or above; `init` writes zeros. -/

namespace Sys2Proof.Machine

/-! ### The must-be-zero bits of a register -/

/-- The must-be-zero bits of register a; none for an address without a descriptor. -/
def mbzAt (a : Nat) : Byte := (romRTable[a]?.map RegDesc.mbz).getD 0

theorem mbzAt_of_two_le {a : Nat} (h : 2 ≤ a) : mbzAt a = 0 := by
  have inRom : ∀ k < 16, 2 ≤ k → mbzAt k = 0 := by decide
  by_cases hlt : a < 16
  · exact inRom a hlt h
  · have hnone : romRTable[a]? = none := List.getElem?_eq_none_iff.2 (by simpa [romRTable] using hlt)
    simp [mbzAt, hnone]

/-- R118: a field's mask holds no must-be-zero bit of the field's register. -/
theorem not_mask_and_mbzAt (f : Field) :
    ~~~(romF f).mask &&& mbzAt (romF f).reg.toNat = mbzAt (romF f).reg.toNat := by cases f <;> decide

theorem mbzClear_iff (reg : Vector Byte 16) : MbzClear reg ↔ ∀ a : Fin 16, reg[a] &&& mbzAt a.val = 0 := by
  refine forall_congr' fun a => ?_
  have haddr : romR (BitVec.ofNat 8 a.val) = romRTable[a.val]? := by
    rw [romR, BitVec.toNat_ofNat, Nat.mod_eq_of_lt (by omega)]
  rw [haddr, mbzAt]
  cases romRTable[a.val]? <;> simp

/-- Insertion into a field passes the must-be-zero bits of the old byte through (R182). -/
theorem finsert_and_mbzAt (f : Field) (old bits : Byte) (h : bits &&& ~~~(romF f).mask = 0) :
    finsert (romF f) old bits &&& mbzAt (romF f).reg.toNat = old &&& mbzAt (romF f).reg.toNat := by
  rw [← not_mask_and_mbzAt f, ← BitVec.and_assoc, ← BitVec.and_assoc, finsert_outside (romF f) old bits h]

/-! ### Bytes the host may write -/

/-- Written from register a upward, the bytes set no must-be-zero bit. -/
def MbzFree (a : Nat) (bytes : List Byte) : Prop := ∀ k, bytes.getD k 0 &&& mbzAt (a + k) = 0

theorem mbzFree_of_two_le {a : Nat} (h : 2 ≤ a) (bytes : List Byte) : MbzFree a bytes := fun k => by
  rw [mbzAt_of_two_le (by omega)]
  exact BitVec.and_zero

theorem mbzFree_nil (a : Nat) : MbzFree a [] := fun _ => BitVec.zero_and

theorem mbzFree_cons {a : Nat} {x : Byte} {xs : List Byte} :
    MbzFree a (x :: xs) ↔ x &&& mbzAt a = 0 ∧ MbzFree (a + 1) xs := by
  constructor
  · exact fun h => ⟨h 0, fun k => by simpa [← Nat.add_assoc, Nat.add_right_comm a 1 k] using h (k + 1)⟩
  · rintro ⟨hx, hxs⟩ (_ | k)
    · exact hx
    · simpa [← Nat.add_assoc, Nat.add_right_comm a 1 k] using hxs k

theorem writeReg_keeps_mbzClear {reg reg' : Vector Byte 16} {a : Nat} {x : Byte} (hreg : MbzClear reg)
    (hx : x &&& mbzAt a = 0) (h : writeReg reg a x = some reg') : MbzClear reg' := by
  rw [mbzClear_iff] at hreg ⊢
  unfold writeReg at h
  split at h
  · cases h
    intro k
    by_cases hk : a = k.val
    · subst hk
      simpa using hx
    · simpa [hk] using hreg k
  · cases h

theorem writeRegs_keeps_mbzClear {bytes : List Byte} {reg reg' : Vector Byte 16} {a : Nat} (hreg : MbzClear reg)
    (hbytes : MbzFree a bytes) (h : writeRegs reg a bytes = some reg') : MbzClear reg' := by
  induction bytes generalizing reg a with
  | nil => cases h; exact hreg
  | cons x xs ih =>
    obtain ⟨hx, hxs⟩ := mbzFree_cons.1 hbytes
    unfold writeRegs at h
    split at h
    · next hwrite => exact ih (writeReg_keeps_mbzClear hreg hx hwrite) hxs h
    · cases h

/-! ### What the writing operations answer -/

/-- What the host writes back of the response (R338) sets no must-be-zero bit. -/
def Response.WritesMbzFree (r : Response) : Prop :=
  r.status = .ok → MbzFree r.raddr.toNat (r.out.toList.take r.rlen.toNat)

/-- The outcome puts bits of field f into the old byte IN0 (R182), for the field's register, or raises. -/
def InsertsField (f : Field) (s : State) (o : Host.Outcome State Fault Refusal) : Prop :=
  (∃ bits, bits &&& ~~~(romF f).mask = 0 ∧ o = finishOk s [finsert (romF f) s.in0 bits] (romF f).reg 1) ∨
  ∃ e, o = raiseCause s e

theorem exec_fldPut_insertsField (f : Field) (s : State) : InsertsField f s (exec (.fldPut f) s) := by
  cases h : fencode (romF f) s.in1 with
  | some bits =>
    obtain ⟨-, -, hinside⟩ := fencode_some h
    exact .inl ⟨bits, hinside, by simp only [exec, execFldPut, h]⟩
  | none => exact .inr ⟨.invalidArgument, by simp only [exec, execFldPut, h]⟩

theorem exec_flgOn_insertsField (f : Field) (s : State) : InsertsField f s (exec (.flgOn f) s) := by
  by_cases h : isFlag f = true
  · exact .inl ⟨_, (flagBit_inside h).1, if_pos h⟩
  · exact .inr ⟨.illegalRequest, if_neg h⟩

theorem exec_flgOff_insertsField (f : Field) (s : State) : InsertsField f s (exec (.flgOff f) s) := by
  by_cases h : isFlag f = true
  · exact .inl ⟨_, (flagBit_inside h).2, if_pos h⟩
  · exact .inr ⟨.illegalRequest, if_neg h⟩

theorem raiseCause_not_ok {s t : State} {e : Cause} (h : raiseCause s e = .next t) : t.resp.status ≠ .ok := by
  obtain rfl : s.respond (errorResponse e) = t := Host.Outcome.next.inj h
  exact causeStatus_ne_ok e

/-- A field operation on an old byte without must-be-zero bits answers a byte without them. -/
theorem InsertsField.writesMbzFree {f : Field} {s t : State} {o : Host.Outcome State Fault Refusal}
    (ho : InsertsField f s o) (hold : s.in0 &&& mbzAt (romF f).reg.toNat = 0) (h : o = .next t) :
    t.resp.WritesMbzFree := by
  intro hok
  obtain ⟨bits, hbits, rfl⟩ | ⟨e, rfl⟩ := ho
  · obtain rfl : s.respond (okResponse _ _ _) = t := Host.Outcome.next.inj h
    exact mbzFree_cons.2 ⟨(finsert_and_mbzAt f s.in0 bits hbits).trans hold, mbzFree_nil _⟩
  · exact absurd hok (raiseCause_not_ok h)

/-- The packing operations of the datetime, the time and the alarm (R221, R222, R241). -/
def packInstrs : List Instr := [.dtPack, .tmPack, .almPack]

theorem two_le_raddr_of_finishOk {s t : State} {bytes : List Byte} {raddr : Byte} {rlen : BitVec 4}
    (hraddr : 2 ≤ raddr.toNat) (h : finishOk s bytes raddr rlen = .next t) : 2 ≤ t.resp.raddr.toNat := by
  obtain rfl : s.respond (okResponse bytes raddr rlen) = t := Host.Outcome.next.inj h
  exact hraddr

/-- A packing operation answers OK only for registers 0x02 and above, none of which has a must-be-zero bit. -/
theorem two_le_raddr_of_pack {i : Instr} {s t : State} (hi : i ∈ packInstrs) (h : exec i s = .next t)
    (hok : t.resp.status = .ok) : 2 ≤ t.resp.raddr.toNat := by
  simp only [packInstrs, List.mem_cons, List.not_mem_nil, or_false] at hi
  obtain rfl | rfl | rfl := hi
  · simp only [exec, execDtPack] at h
    split at h
    · exact two_le_raddr_of_finishOk (by decide) h
    · exact absurd hok (raiseCause_not_ok h)
  · simp only [exec, execTmPack] at h
    split at h
    · exact two_le_raddr_of_finishOk (by decide) h
    · exact absurd hok (raiseCause_not_ok h)
  · simp only [exec, execAlmPack] at h
    split at h
    · exact absurd hok (raiseCause_not_ok h)
    · split at h
      · exact two_le_raddr_of_finishOk (by decide) h
      · exact absurd hok (raiseCause_not_ok h)

theorem pack_writesMbzFree {i : Instr} {s t : State} (hi : i ∈ packInstrs) (h : exec i s = .next t) :
    t.resp.WritesMbzFree := fun hok => mbzFree_of_two_le (two_le_raddr_of_pack hi h hok) _

/-! ### What the host's transactions do to the bench -/

/-- The invariant of the host sequences: nothing but the host changes the registers, and no must-be-zero bit is set. -/
structure Bench.Clear (b : Bench) : Prop where
  quiet : b.schedule = []
  mbz : MbzClear b.reg

theorem issue_some {i : Instr} {bytes : List Byte} {b b' : Bench} (h : b.issue i bytes = some b') :
    exec i (b.block.present ⟨encode i, lanesOf bytes⟩) = .next b'.block ∧ b'.reg = b.reg ∧
      b'.schedule = b.schedule := by
  obtain ⟨t, ht, hb⟩ := request_spec ⟨encode i, lanesOf bytes⟩ b
  obtain rfl : { b with block := t } = b' := Option.some.inj (hb.symm.trans h)
  exact ⟨(step_of_cmd_eq_encode rfl).symm.trans ht, rfl, rfl⟩

theorem issue_keeps_clear {i : Instr} {bytes : List Byte} {b b' : Bench} (hb : b.Clear)
    (h : b.issue i bytes = some b') : b'.Clear := by
  obtain ⟨-, hreg, hschedule⟩ := issue_some h
  exact ⟨hschedule.trans hb.quiet, hreg ▸ hb.mbz⟩

theorem wr_keeps_clear {a : Nat} {bytes : List Byte} {b b' : Bench} (hb : b.Clear) (hbytes : MbzFree a bytes)
    (h : b.wr a bytes = some b') : b'.Clear := by
  unfold Bench.wr at h
  split at h
  · next hwrite => cases h; exact ⟨hb.quiet, writeRegs_keeps_mbzClear hb.mbz hbytes hwrite⟩
  · cases h

theorem commit_keeps_clear {b b' : Bench} (hb : b.Clear) (hresp : b.block.resp.WritesMbzFree)
    (h : b.commit = some b') : b'.Clear := by
  unfold Bench.commit at h
  split at h
  · next hok => exact wr_keeps_clear hb (hresp hok) h
  · cases h; exact hb

theorem issueThenCommit_keeps_clear {i : Instr} {bytes : List Byte} {b b' : Bench} (hb : b.Clear)
    (hexec : ∀ t, exec i (b.block.present ⟨encode i, lanesOf bytes⟩) = .next t → t.resp.WritesMbzFree)
    (h : b.issueThenCommit i bytes = some b') : b'.Clear := by
  unfold Bench.issueThenCommit at h
  split at h
  · next b₁ hissue => exact commit_keeps_clear (issue_keeps_clear hb hissue) (hexec _ (issue_some hissue).1) h
  · cases h

/-- On a quiet fixture a read leaves the bench as it is, and the bytes read are the registers'. -/
theorem readThenIssue_eq_issue {i : Instr} {a n : Nat} {more : List Byte} {b : Bench} (hquiet : b.schedule = [])
    (hlen : a + n ≤ 16) : b.readThenIssue i a n more =
      b.issue i ((List.range n).map (fun k => b.reg.toList.getD (a + k) 0) ++ more) := by
  obtain ⟨sch, hrd, -, hsch⟩ := rd_spec n a b hlen (by simp [hquiet])
  have hsame : { b with schedule := sch } = b := by rw [hsch hquiet, ← hquiet]
  rw [hsame] at hrd
  simp only [Bench.readThenIssue, hrd]

theorem readThenIssue_keeps_clear {i : Instr} {a n : Nat} {more : List Byte} {b b' : Bench} (hb : b.Clear)
    (hlen : a + n ≤ 16) (h : b.readThenIssue i a n more = some b') : b'.Clear :=
  issue_keeps_clear hb (readThenIssue_eq_issue hb.quiet hlen ▸ h)

/-! ### The host sequences -/

/-- The old byte is the field's own register, which has no must-be-zero bit set, and insertion adds none. -/
theorem rmw_keeps_clear {i : Instr} {f : Field} {more : List Byte} {b b' : Bench} (hb : b.Clear)
    (hi : ∀ s, InsertsField f s (exec i s)) (h : b.rmw i f more = some b') : b'.Clear := by
  have hreg := romF_reg_lt f
  unfold Bench.rmw at h
  split at h
  · next b₁ hread =>
    rw [readThenIssue_eq_issue hb.quiet hreg] at hread
    have hold : b.reg.toList.getD (romF f).reg.toNat 0 &&& mbzAt (romF f).reg.toNat = 0 := by
      simpa [List.getD, hreg] using (mbzClear_iff b.reg).1 hb.mbz ⟨_, hreg⟩
    exact commit_keeps_clear (issue_keeps_clear hb hread) ((hi _).writesMbzFree hold (issue_some hread).1) h
  · cases h

theorem setField_keeps_clear {f : Field} {v : Byte} {b b' : Bench} (hb : b.Clear) (h : b.setField f v = some b') :
    b'.Clear := rmw_keeps_clear hb (exec_fldPut_insertsField f) h

theorem setFlag_keeps_clear {f : Field} {on : Bool} {b b' : Bench} (hb : b.Clear) (h : b.setFlag f on = some b') :
    b'.Clear := by
  cases on with
  | true => exact rmw_keeps_clear hb (exec_flgOn_insertsField f) h
  | false => exact rmw_keeps_clear hb (exec_flgOff_insertsField f) h

theorem readField_keeps_clear {f : Field} {b b' : Bench} (hb : b.Clear) (h : b.readField f = some b') : b'.Clear :=
  readThenIssue_keeps_clear hb (romF_reg_lt f) h

theorem testFlag_keeps_clear {f : Field} {b b' : Bench} (hb : b.Clear) (h : b.testFlag f = some b') : b'.Clear :=
  readThenIssue_keeps_clear hb (romF_reg_lt f) h

theorem getDatetime_keeps_clear {b b' : Bench} (hb : b.Clear) (h : b.getDatetime = some b') : b'.Clear := by
  unfold Bench.getDatetime at h
  split at h
  · next b₁ hread =>
    have hb₁ : b₁.Clear := readThenIssue_keeps_clear hb (by decide) hread
    split at h
    · exact readThenIssue_keeps_clear hb₁ (by decide) h
    · cases h; exact hb₁
  · cases h

/-- The century goes into a response that names registers 0x02 and above only. -/
theorem insertCentury_keeps_clear {c : CenturyWrite} {b b' : Bench} (hb : b.Clear)
    (hraddr : 2 ≤ b.block.resp.raddr.toNat) (h : b.insertCentury c = some b') : b'.Clear := by
  unfold Bench.insertCentury at h
  split at h
  · next b₁ hissue =>
    have hb₁ : b₁.Clear := issue_keeps_clear hb hissue
    split at h
    · exact wr_keeps_clear hb₁ (mbzFree_of_two_le hraddr _) h
    · cases h; exact hb₁
  · cases h

theorem setDatetimeWithCentury_keeps_clear {s mi h d w mo y : Byte} {c : CenturyWrite} {b b' : Bench} (hb : b.Clear)
    (hrun : b.setDatetimeWithCentury s mi h d w mo y c = some b') : b'.Clear := by
  unfold Bench.setDatetimeWithCentury at hrun
  split at hrun
  · next b₁ hissue =>
    have hb₁ : b₁.Clear := issue_keeps_clear hb hissue
    split at hrun
    · next hok =>
      exact insertCentury_keeps_clear hb₁ (two_le_raddr_of_pack (by decide) (issue_some hissue).1 hok) hrun
    · cases hrun; exact hb₁
  · cases hrun

theorem setDatetimeKeepingCentury_keeps_clear {s mi h d w mo y : Byte} {b b' : Bench} (hb : b.Clear)
    (hrun : b.setDatetimeKeepingCentury s mi h d w mo y = some b') : b'.Clear := by
  unfold Bench.setDatetimeKeepingCentury at hrun
  split at hrun
  · next b₁ hread => exact setDatetimeWithCentury_keeps_clear (readField_keeps_clear hb hread) hrun
  · cases hrun

theorem pack_issueThenCommit_keeps_clear {i : Instr} {bytes : List Byte} {b b' : Bench} (hb : b.Clear)
    (hi : i ∈ packInstrs) (h : b.issueThenCommit i bytes = some b') : b'.Clear :=
  issueThenCommit_keeps_clear hb (fun _ => pack_writesMbzFree hi) h

theorem runPseudo_keeps_clear {p : Pseudo} {v : Byte} {b b' : Bench} (hb : b.Clear) (h : b.runPseudo p v = some b') :
    b'.Clear := by
  unfold Bench.runPseudo at h
  generalize expandPseudo p = i at h
  cases i with
  | flgTest f => exact testFlag_keeps_clear hb h
  | fldPut f => exact setField_keeps_clear hb h
  | flgOn f => exact setFlag_keeps_clear hb h
  | flgOff f => exact setFlag_keeps_clear hb h
  | _ => cases h; exact hb

theorem init_keeps_clear {b b' : Bench} (hb : b.Clear) (h : b.init = some b') : b'.Clear := by
  have zeros_free : MbzFree 0x00 [0x00, 0x00] := mbzFree_cons.2 ⟨by decide, mbzFree_cons.2 ⟨by decide, mbzFree_nil _⟩⟩
  unfold Bench.init at h
  split at h
  · next b₁ hwr =>
    exact issueThenCommit_keeps_clear (wr_keeps_clear hb zeros_free hwr)
      (fun _ => (exec_fldPut_insertsField .td _).writesMbzFree BitVec.zero_and) h
  · cases h

theorem runSequence_keeps_clear {q : Sequence} {b b' : Bench} (hb : b.Clear) (h : b.runSequence q = some b') :
    b'.Clear := by
  cases q with
  | getDatetime => exact getDatetime_keeps_clear hb h
  | setDatetime => exact pack_issueThenCommit_keeps_clear hb (by decide) h
  | setDatetimeWithCentury => exact setDatetimeWithCentury_keeps_clear hb h
  | setDatetimeKeepingCentury => exact setDatetimeKeepingCentury_keeps_clear hb h
  | setTime => exact pack_issueThenCommit_keeps_clear hb (by decide) h
  | getAlarm => exact readThenIssue_keeps_clear hb (by decide) h
  | setAlarm => exact pack_issueThenCommit_keeps_clear hb (by decide) h
  | setField => exact setField_keeps_clear hb h
  | setFlag => exact setFlag_keeps_clear hb h
  | readField => exact readField_keeps_clear hb h
  | testFlag => exact testFlag_keeps_clear hb h
  | pseudo => exact runPseudo_keeps_clear hb h
  | init => exact init_keeps_clear hb h

/-- Settles O50: each sequence keeps the bench quiet and its must-be-zero bits clear. -/
theorem facadeNeverSetsMustBeZeroBits : Obligations.FacadeNeverSetsMustBeZeroBits := by
  intro q b b' hquiet hmbz h
  have hb : b.Clear := ⟨hquiet, hmbz⟩
  exact (runSequence_keeps_clear hb h).mbz

end Sys2Proof.Machine

/-! PROOFS. The BCD codec (spec/41_bcd_codec.md R160 to R164). -/

namespace Sys2Proof.Machine

/-! ### Packed decimals -/

/-- Settles O17: the count is evaluated, and the inverses are the laws of the digits. -/
theorem bcdHelpersAreInverse : Obligations.BcdHelpersAreInverse := by
  refine ⟨by rfl, fun d hd => ?_, fun v => dec2bcd_bcd2dec⟩
  obtain ⟨hok, hinv⟩ := bcdOk_dec2bcd hd
  exact ⟨hok, hinv, (packed_eq_dec2bcd hd).symm⟩

/-- A byte holds a decimal exactly when it is that decimal's packed byte, and only 0..99 have one. -/
theorem holdsBcd_iff_eq_packed {x : Byte} {n : Nat} : HoldsBcd x n ↔ n ≤ 99 ∧ x = packed n := by
  rw [holdsBcd_iff]
  constructor
  · rintro ⟨hok, rfl⟩
    obtain ⟨hle, hinv⟩ := dec2bcd_bcd2dec hok
    exact ⟨hle, by rw [packed_eq_dec2bcd hle, hinv]⟩
  · rintro ⟨hle, rfl⟩
    obtain ⟨hok, hinv⟩ := bcdOk_dec2bcd hle
    rw [packed_eq_dec2bcd hle]
    exact ⟨hok, hinv.symm⟩

/-- A decimal a byte holds is itself a byte. -/
theorem toNat_toByte_of_holdsBcd {x : Byte} {n : Nat} (h : HoldsBcd x n) : (toByte n).toNat = n := by
  obtain ⟨hle, -⟩ := holdsBcd_iff_eq_packed.1 h
  exact Nat.mod_eq_of_lt (by omega)

theorem exists_holdsBcd_iff {x : Byte} : (∃ n, HoldsBcd x n) ↔ bcdOk x = true := by
  simp [holdsBcd_iff]

/-- A byte with no bit outside the mask is its own masked byte. -/
theorem and_eq_self_of_and_not_eq_zero {x m : Byte} (h : x &&& ~~~m = 0) : x &&& m = x := by
  have hsplit : (x &&& m) ||| (x &&& ~~~m) = x := by
    rw [← BitVec.and_or_distrib_left, BitVec.or_not_self, BitVec.and_allOnes]
  simpa [h] using hsplit

/-! ### What the two operations answer -/

/-- BCD_DEC of a byte that holds a decimal under the mask (R162). -/
theorem exec_bcdDec_of_holdsBcd {s : State} {n : Nat} (h : HoldsBcd (s.req.ins.l0 &&& s.req.ins.l1) n) :
    exec .bcdDec s = answered s ⟨.ok, lanesOf [toByte n], 0, 0⟩ := by
  obtain ⟨hok, rfl⟩ := (holdsBcd_iff _ _).1 h
  exact if_pos hok

/-- BCD_DEC of a byte that holds none (R162). -/
theorem exec_bcdDec_of_not_holdsBcd {s : State} (h : ¬ ∃ n, HoldsBcd (s.req.ins.l0 &&& s.req.ins.l1) n) :
    exec .bcdDec s = failed s .decodeAnomaly :=
  if_neg (mt exists_holdsBcd_iff.2 h)

/-- The precondition of BCD_ENC (R163): the decimal IN0 has a BCD byte, and its bits lie inside the mask IN1. -/
def FitsBcdMask (s : State) : Prop := s.req.ins.l0.toNat ≤ 99 ∧ packed s.req.ins.l0.toNat &&& ~~~s.req.ins.l1 = 0

theorem exec_bcdEnc_of_fits {s : State} (h : FitsBcdMask s) :
    exec .bcdEnc s = answered s ⟨.ok, lanesOf [packed s.req.ins.l0.toNat], 0, 0⟩ := by
  obtain ⟨hle, hmask⟩ := h
  rw [packed_eq_dec2bcd hle] at hmask ⊢
  exact (if_neg (not_lt.2 hle)).trans (if_neg (not_not.2 hmask))

theorem exec_bcdEnc_of_not_fits {s : State} (h : ¬ FitsBcdMask s) : exec .bcdEnc s = failed s .invalidArgument := by
  by_cases hle : s.req.ins.l0.toNat ≤ 99
  · have hmask : dec2bcd s.req.ins.l0.toNat &&& ~~~s.req.ins.l1 ≠ 0 :=
      fun hmask => h ⟨hle, by rw [packed_eq_dec2bcd hle, hmask]⟩
    exact (if_neg (not_lt.2 hle)).trans (if_pos hmask)
  · exact if_pos (not_le.1 hle)

/-- Settles O18: the two cases of the masked byte; BCD_DEC takes no field, so its word has no other low bits. -/
theorem bcdDecResult : Obligations.BcdDecResult :=
  ⟨rfl, fun _ _ => exec_bcdDec_of_holdsBcd, fun _ => exec_bcdDec_of_not_holdsBcd,
    fun _ => step_failed_of_lowOf_ne_zero (i := .bcdDec) rfl⟩

/-- Settles O19: the two cases of the precondition; BCD_ENC takes no field, so its word has no other low bits. -/
theorem bcdEncResult : Obligations.BcdEncResult := by
  refine ⟨rfl, fun s hle hmask => exec_bcdEnc_of_fits ⟨hle, hmask⟩, fun s h => exec_bcdEnc_of_not_fits ?_,
    fun _ => step_failed_of_lowOf_ne_zero (i := .bcdEnc) rfl⟩
  rintro ⟨hle, hmask⟩
  obtain h | h := h
  · omega
  · exact h hmask

/-! ### The laws of the codec -/

@[simp] theorem withIns_ins (s : State) (bytes : List Byte) : (s.withIns bytes).req.ins = lanesOf bytes := rfl

theorem answersByte_answered_iff {s : State} {r : Response} {b : Byte} :
    AnswersByte (answered s r) b ↔ r.status = .ok ∧ r.out.l0 = b := by
  simp [AnswersByte, answered]

/-- BCD_DEC answers the decimal the masked byte holds. -/
theorem answersByte_bcdDec_of_holdsBcd {s : State} {d : Byte}
    (h : HoldsBcd (s.req.ins.l0 &&& s.req.ins.l1) d.toNat) : AnswersByte (exec .bcdDec s) d := by
  have hd : toByte d.toNat = d := by simp [toByte]
  rw [exec_bcdDec_of_holdsBcd h, hd]
  exact answersByte_answered_iff.2 ⟨rfl, rfl⟩

/-- BCD_ENC answers exactly the packed byte of a decimal that fits the mask. -/
theorem answersByte_bcdEnc_iff {s : State} {b : Byte} :
    AnswersByte (exec .bcdEnc s) b ↔ FitsBcdMask s ∧ b = packed s.req.ins.l0.toNat := by
  by_cases hfits : FitsBcdMask s
  · simp [exec_bcdEnc_of_fits hfits, answersByte_answered_iff, hfits, eq_comm]
  · simp [exec_bcdEnc_of_not_fits hfits, failed, answersByte_answered_iff, hfits]

/-- The round trip for every mask: the encoded byte lies inside the mask, so decoding sees all of it. -/
theorem bcdDec_of_bcdEnc {s : State} {d m b : Byte} (h : AnswersByte (exec .bcdEnc (s.withIns [d, m])) b) :
    AnswersByte (exec .bcdDec (s.withIns [b, m])) d := by
  obtain ⟨⟨hle, hmask⟩, rfl⟩ := answersByte_bcdEnc_iff.1 h
  exact answersByte_bcdDec_of_holdsBcd (holdsBcd_iff_eq_packed.2 ⟨hle, and_eq_self_of_and_not_eq_zero hmask⟩)

/-- Under mask 0xFF every decimal of two digits encodes. -/
theorem bcdEnc_fullMask {s : State} {d : Byte} (hle : d.toNat ≤ 99) :
    AnswersByte (exec .bcdEnc (s.withIns [d, 0xFF])) (packed d.toNat) :=
  answersByte_bcdEnc_iff.2 ⟨⟨hle, by simp⟩, rfl⟩

/-- A valid byte under mask 0xFF decodes to a decimal whose packed byte it is. -/
theorem bcdDec_fullMask {s : State} {v : Byte} (hok : bcdOk v = true) :
    ∃ d : Byte, d.toNat ≤ 99 ∧ v = packed d.toNat ∧ AnswersByte (exec .bcdDec (s.withIns [v, 0xFF])) d := by
  obtain ⟨n, hn⟩ := exists_holdsBcd_iff.2 hok
  obtain ⟨hle, hv⟩ := holdsBcd_iff_eq_packed.1 hn
  have hd := toNat_toByte_of_holdsBcd hn
  refine ⟨toByte n, hd.symm ▸ hle, hd.symm ▸ hv, answersByte_bcdDec_of_holdsBcd ?_⟩
  rw [hd]
  exact (BitVec.and_allOnes (x := v)).symm ▸ hn

/-- BCD_DEC reads its two lanes through the masked byte only. -/
theorem exec_bcdDec_sameAnswer {s s' : State}
    (h : s.req.ins.l0 &&& s.req.ins.l1 = s'.req.ins.l0 &&& s'.req.ins.l1) :
    SameAnswer s s' (exec .bcdDec s) (exec .bcdDec s') := by
  simp only [exec, execBcdDec, h]
  exact .ite (finishOk_sameAnswer ..) (raiseCause_sameAnswer ..)

/-- Settles O20: each law from what the two operations answer. -/
theorem bcdCodecLaws : Obligations.BcdCodecLaws := by
  refine ⟨fun _ _ _ _ => bcdDec_of_bcdEnc, fun s d hle => ?_, fun s v hok => ?_, fun s s' t hmask hmasked ht => ?_,
    fun s d m hd => exec_bcdEnc_of_not_fits ?_⟩
  · exact ⟨packed d.toNat, bcdEnc_fullMask hle, bcdDec_of_bcdEnc (bcdEnc_fullMask hle)⟩
  · obtain ⟨d, hle, rfl, hdec⟩ := bcdDec_fullMask hok
    exact ⟨d, hdec, bcdEnc_fullMask hle⟩
  · obtain ⟨r, hs, hs'⟩ := exec_bcdDec_sameAnswer (s := s) (s' := s') (by rw [hmasked, hmask])
    obtain rfl : s.respond r = t := Host.Outcome.next.inj (hs.symm.trans ht)
    exact hs'
  · rintro ⟨hle, -⟩
    exact absurd (hd.trans hle) (by decide)

end Sys2Proof.Machine

/-! PROOFS. The field operations (spec/42_field_ops.md R180 to R193): what FLD_GET, FLD_PUT, FLG_ON, FLG_OFF and
FLG_TEST answer, which bits they see, and which they leave as they are. -/

namespace Sys2Proof.Machine

/-! ### The words of the field operations -/

/-- The word of an operation on a field: OPC in bits 15:12 and FID in bits 4:0 (R70). -/
theorem encode_of_field? {i : Instr} {f : Field} (h : i.field? = some f) :
    encode i = i.opc.setWidth 16 <<< 12 ||| f.fid.setWidth 16 := by
  have hfid : i.fidBits = f.fid := by simp only [Instr.fidBits, h]
  rw [← BitVec.setWidth_eq (encode i), encode, hfid, BitVec.setWidth_append_eq_shiftLeft_setWidth_or,
    BitVec.setWidth_append_eq_shiftLeft_setWidth_or]
  simp [← BitVec.shiftLeft_add]

theorem decode_fieldWord {i : Instr} {f : Field} (hfield : i.field? = some f) (hwf : i.wellFormed = true) :
    decode (i.opc.setWidth 16 <<< 12 ||| f.fid.setWidth 16) = .ok i :=
  encode_of_field? hfield ▸ decode_encode hwf

theorem fourteen_le_fidBits {i : Instr} (hwf : i.wellFormed = true) (hopc : i.opc.toNat ∈ [4, 5, 6]) :
    14 ≤ i.fidBits.toNat := by
  cases i with
  | flgOn f => exact (isFlag_iff f).1 hwf
  | flgOff f => exact (isFlag_iff f).1 hwf
  | flgTest f => exact (isFlag_iff f).1 hwf
  | _ => simp [Instr.opc] at hopc

/-- R302 (a), (c) and (d): the OPC of a FLAG-only operation, with RSV not 0 or a FID that is no FLAG field's. -/
theorem step_failed_of_flagOpc {s : State} (hopc : opcOf s.req.cmd ∈ [4, 5, 6])
    (hlow : lowOf s.req.cmd ≤ 13 ∨ 30 ≤ lowOf s.req.cmd) : step s = failed s .illegalRequest := by
  obtain hlow | hlow := hlow
  · cases hd : decode s.req.cmd with
    | ok i =>
      obtain ⟨hi, hwf⟩ := encode_of_decode_ok hd
      rw [← hi, opcOf_encode] at hopc
      rw [← hi, lowOf_encode] at hlow
      have := fourteen_le_fidBits hwf hopc
      omega
    | error e => exact step_of_decode_error hd
  · exact step_failed_of_thirty_le_lowOf hlow

/-! ### The code of a legal value fits its field -/

/-- Each mask, shifted down, is a run of low bits. -/
theorem mask_ushiftRight_eq_lowBits (f : Field) : ∃ w ≤ 8, ((romF f).mask >>> (romF f).shift).toNat = 2 ^ w - 1 := by
  cases f <;> decide

theorem and_eq_self_of_le_lowBits {x m : Byte} {w : Nat} (hm : m.toNat = 2 ^ w - 1) (h : x.toNat ≤ m.toNat) :
    x &&& m = x := by
  have hpos := Nat.two_pow_pos w
  apply BitVec.eq_of_toNat_eq
  rw [BitVec.toNat_and, hm, Nat.and_two_pow_sub_one_eq_mod, Nat.mod_eq_of_lt (by omega)]

theorem hi_le_of_bcd {f : Field} (h : (romF f).kind = .bcd) : (romF f).hi.toNat ≤ 99 := by
  revert h
  cases f <;> decide

theorem toNat_dec2bcd {n : Nat} (h : n ≤ 99) : (dec2bcd n).toNat = 16 * (n / 10) + n % 10 := by
  rw [← packed_eq_dec2bcd h, packed, toByte, BitVec.toNat_ofNat, Nat.mod_eq_of_lt (by omega)]

/-- Codes are in the order of the values they stand for. -/
theorem fieldCode_mono {d : FieldDesc} {v w : Byte} (hbcd : d.kind = .bcd → w.toNat ≤ 99) (h : v.toNat ≤ w.toNat) :
    (fieldCode d v).toNat ≤ (fieldCode d w).toNat := by
  unfold fieldCode
  split
  · next hk =>
    have hw := hbcd hk
    rw [toNat_dec2bcd (h.trans hw), toNat_dec2bcd hw]
    omega
  · exact h
  · exact h
  · exact h

/-- The greatest legal value's code is below the width of the field, so every legal value's is. -/
theorem fieldCode_and_mask {f : Field} {v : Byte} (h : inRange (romF f) v = true) :
    fieldCode (romF f) v &&& ((romF f).mask >>> (romF f).shift) = fieldCode (romF f) v := by
  obtain ⟨w, -, hw⟩ := mask_ushiftRight_eq_lowBits f
  have hmax : (fieldCode (romF f) (romF f).hi).toNat ≤ ((romF f).mask >>> (romF f).shift).toNat := by
    cases f <;> decide
  exact and_eq_self_of_le_lowBits hw ((fieldCode_mono hi_le_of_bcd ((inRange_iff _ _).1 h).2).trans hmax)

/-- A code inside the shifted mask has its bits where the mask, unshifted, has them. -/
theorem getLsbD_mask_of_and_eq_self {c m : Byte} {k i : Nat} (h : c &&& (m >>> k) = c) (hc : c.getLsbD i = true) :
    m.getLsbD (k + i) = true := by
  rw [← h, BitVec.getLsbD_and, BitVec.getLsbD_ushiftRight, Bool.and_eq_true] at hc
  exact hc.2

/-- A code inside the shifted mask lies inside the mask when it is shifted up (R181). -/
theorem shiftLeft_inside {c m : Byte} {k : Nat} (h : c &&& (m >>> k) = c) : c <<< k &&& ~~~m = 0 := by
  apply BitVec.eq_of_getLsbD_eq
  intro i hi
  simp only [BitVec.getLsbD_and, BitVec.getLsbD_shiftLeft, BitVec.getLsbD_not, BitVec.ofNat_eq_ofNat,
    BitVec.getLsbD_zero]
  by_cases hk : i < k
  · simp [hk]
  · cases hc : c.getLsbD (i - k) with
    | false => simp
    | true =>
      have hm := getLsbD_mask_of_and_eq_self h hc
      rw [Nat.add_sub_of_le (not_lt.1 hk)] at hm
      simp [hm]

/-- A code inside the shifted mask loses no bit when it is shifted up (R181). -/
theorem shiftLeft_ushiftRight_self {c m : Byte} {k : Nat} (h : c &&& (m >>> k) = c) : (c <<< k) >>> k = c := by
  apply BitVec.eq_of_getLsbD_eq
  intro i _
  simp only [BitVec.getLsbD_ushiftRight, BitVec.getLsbD_shiftLeft, Nat.add_sub_cancel_left]
  cases hc : c.getLsbD i with
  | false => simp
  | true => simp [BitVec.lt_of_getLsbD (getLsbD_mask_of_and_eq_self h hc)]

theorem fieldBits_inside {f : Field} {v : Byte} (h : inRange (romF f) v = true) :
    fieldBits (romF f) v &&& ~~~(romF f).mask = 0 :=
  shiftLeft_inside (fieldCode_and_mask h)

theorem fieldBits_ushiftRight {f : Field} {v : Byte} (h : inRange (romF f) v = true) :
    fieldBits (romF f) v >>> (romF f).shift = fieldCode (romF f) v :=
  shiftLeft_ushiftRight_self (fieldCode_and_mask h)

theorem fencode_of_inRange {f : Field} {v : Byte} (h : inRange (romF f) v = true) :
    fencode (romF f) v = some (fieldBits (romF f) v) :=
  (if_pos h).trans (if_neg (not_not.2 (fieldBits_inside h)))

theorem fencode_of_not_inRange {d : FieldDesc} {v : Byte} (h : inRange d v ≠ true) : fencode d v = none :=
  if_neg h

/-- Settles O29: the greatest value's code fits the mask, and the codes are ordered as the values are. -/
theorem legalValuesFitTheMask : Obligations.LegalValuesFitTheMask := by
  intro f v hlo hhi
  have h := (inRange_iff _ v).2 ⟨hlo, hhi⟩
  exact ⟨fieldBits (romF f) v, fencode_of_inRange h, fieldBits_inside h⟩

/-! ### FLD_GET -/

theorem exec_fldGet_of_holdsField {f : Field} {s : State} {v : Nat} (h : HoldsField (romF f) s.req.ins.l0 v) :
    exec (.fldGet f) s = answered s ⟨.ok, lanesOf [toByte v], (romF f).reg, 1⟩ := by
  simp only [exec, execFldGet, fdecode_of_holdsField h]
  rfl

theorem exec_fldGet_of_not_holdsField {f : Field} {s : State} (h : ¬ ∃ v, HoldsField (romF f) s.req.ins.l0 v) :
    exec (.fldGet f) s = failed s .decodeAnomaly := by
  simp only [exec, execFldGet, fdecode_eq_none_iff.2 h]
  rfl

/-- Decoding fails for a BCD field, or for a BIN field some value of which is out of range (R180). -/
theorem kind_of_fdecode_eq_none {d : FieldDesc} {x : Byte} (h : fdecode d x = none) :
    d.kind = .bcd ∨ d.kind = .bin ∧ ¬ (d.lo.toNat = 0 ∧ d.hi.toNat = 255) := by
  unfold fdecode at h
  split at h
  · next hk => exact .inl hk
  · next hk =>
    refine .inr ⟨hk, ?_⟩
    rintro ⟨hlo, hhi⟩
    have hlt : (fieldRaw d x).toNat < 256 := (fieldRaw d x).isLt
    rw [if_pos ((inRange_iff _ _).2 ⟨by omega, by omega⟩)] at h
    cases h
  · cases h
  · cases h

/-- The BCD fields and the two weekday fields are FID 0 to 10; TIMER_VALUE, the other BIN field, takes every byte. -/
theorem fid_le_ten_of_fdecode_eq_none {f : Field} {x : Byte} (h : fdecode (romF f) x = none) : f.fid.toNat ≤ 10 := by
  have hkind := kind_of_fdecode_eq_none h
  revert hkind
  cases f <;> decide

/-- Settles O21: the two cases of the register byte. -/
theorem fldGetResult : Obligations.FldGetResult :=
  ⟨fun f => decode_fieldWord (i := .fldGet f) rfl rfl, fun _ _ _ => exec_fldGet_of_holdsField,
    fun _ _ h => ⟨exec_fldGet_of_not_holdsField h, fid_le_ten_of_fdecode_eq_none (fdecode_eq_none_iff.2 h)⟩,
    fun _ _ => step_failed_of_thirty_le_lowOf⟩

/-! ### FLD_PUT -/

theorem exec_fldPut_of_inRange {f : Field} {s : State} (h : inRange (romF f) s.in1 = true) :
    exec (.fldPut f) s =
      answered s ⟨.ok, lanesOf [finsert (romF f) s.in0 (fieldBits (romF f) s.in1)], (romF f).reg, 1⟩ := by
  simp only [exec, execFldPut, fencode_of_inRange h]
  rfl

theorem exec_fldPut_of_not_inRange {f : Field} {s : State} (h : inRange (romF f) s.in1 ≠ true) :
    exec (.fldPut f) s = failed s .invalidArgument := by
  simp only [exec, execFldPut, fencode_of_not_inRange h]
  rfl

/-- Bit by bit, what `finsert` does with bits inside the mask (R182). -/
theorem finsert_inserts {d : FieldDesc} {bits : Byte} (h : bits &&& ~~~d.mask = 0) (old : Byte) :
    Inserts d.mask old bits (finsert d old bits) := by
  intro i hi
  have hinside := congrArg (fun z : Byte => z.getLsbD i) (finsert_inside d old bits h)
  have houtside := congrArg (fun z : Byte => z.getLsbD i) (finsert_outside d old bits h)
  simp only [BitVec.getLsbD_and, BitVec.getLsbD_not, hi, decide_true, Bool.true_and] at hinside houtside
  cases hm : d.mask.getLsbD i with
  | true => simpa [hm] using hinside
  | false => simpa [hm] using houtside

/-- The code of a legal value: its packed decimal for a BCD field, the value itself for the others (R181). -/
theorem fieldCode_eq_ite {d : FieldDesc} {v : Byte} (hbcd : d.kind = .bcd → v.toNat ≤ 99) :
    fieldCode d v = if d.kind = .bcd then packed v.toNat else v := by
  unfold fieldCode
  split
  · next hk => rw [if_pos hk, packed_eq_dec2bcd (hbcd hk)]
  · next hk => simp [hk]
  · next hk => simp [hk]
  · next hk => simp [hk]

/-- Settles O22: the two cases of the value IN1; IN0 is free in both. -/
theorem fldPutResult : Obligations.FldPutResult := by
  refine ⟨fun f => decode_fieldWord (i := .fldPut f) rfl rfl, fun f s hlo hhi => ?_, fun f s h => ?_,
    fun _ _ => step_failed_of_thirty_le_lowOf⟩
  · have h := (inRange_iff (romF f) s.in1).2 ⟨hlo, hhi⟩
    refine ⟨_, ?_, exec_fldPut_of_inRange h⟩
    rw [← fieldCode_eq_ite fun hk => hhi.trans (hi_le_of_bcd hk)]
    exact finsert_inserts (fieldBits_inside h) s.in0
  · refine exec_fldPut_of_not_inRange fun hin => ?_
    obtain ⟨hlo, hhi⟩ := (inRange_iff (romF f) s.req.ins.l1).1 hin
    omega

/-! ### FLG_ON, FLG_OFF and FLG_TEST -/

theorem exec_flgOn_of_isFlag {f : Field} (h : isFlag f = true) (s : State) : exec (.flgOn f) s =
    answered s ⟨.ok, lanesOf [finsert (romF f) s.in0 (onbit (romF f) <<< (romF f).shift)], (romF f).reg, 1⟩ :=
  if_pos h

theorem exec_flgOff_of_isFlag {f : Field} (h : isFlag f = true) (s : State) : exec (.flgOff f) s =
    answered s ⟨.ok, lanesOf [finsert (romF f) s.in0 (offbit (romF f) <<< (romF f).shift)], (romF f).reg, 1⟩ :=
  if_pos h

theorem exec_flgTest_of_isFlag {f : Field} (h : isFlag f = true) (s : State) :
    exec (.flgTest f) s = answered s ⟨.ok, lanesOf [active (romF f) s.in0], (romF f).reg, 1⟩ :=
  if_pos h

/-- A flag is the one bit at its shift. -/
theorem mask_of_isFlag {f : Field} (h : isFlag f = true) : (romF f).mask = BitVec.twoPow 8 (romF f).shift.toNat := by
  revert h
  cases f <;> decide

theorem pol_eq_zero_or_one (f : Field) : (romF f).pol = 0 ∨ (romF f).pol = 1 := by cases f <;> decide

/-- FLG_ON inserts 1 into an active-high flag, FLG_OFF into an active-low one (R183). -/
theorem getLsbD_flagBit {f : Field} (h : isFlag f = true) :
    (onbit (romF f) <<< (romF f).shift).getLsbD (romF f).shift.toNat = decide ((romF f).pol = 0) ∧
      (offbit (romF f) <<< (romF f).shift).getLsbD (romF f).shift.toNat = decide ((romF f).pol = 1) := by
  revert h
  cases f <;> decide

/-- Insertion into a flag changes the one bit at the flag's shift. -/
theorem getLsbD_finsert_of_isFlag {f : Field} (hf : isFlag f = true) {bits : Byte}
    (hbits : bits &&& ~~~(romF f).mask = 0) (old : Byte) {i : Nat} (hi : i < 8) :
    (finsert (romF f) old bits).getLsbD i =
      if i = (romF f).shift.toNat then bits.getLsbD (romF f).shift.toNat else old.getLsbD i := by
  rw [finsert_inserts hbits old i hi, mask_of_isFlag hf, BitVec.getLsbD_twoPow]
  by_cases hshift : i = (romF f).shift.toNat
  · simp [← hshift, hi]
  · simp [hshift, Ne.symm hshift]

/-- Settles O23: the flag's one bit takes the active value. -/
theorem flgOnResult : Obligations.FlgOnResult := by
  refine ⟨fun f hfid => decode_fieldWord (i := .flgOn f) rfl ((isFlag_iff f).2 hfid), fun f s hfid => ?_,
    fun s hopc => step_failed_of_flagOpc (by simp [hopc])⟩
  have hf := (isFlag_iff f).2 hfid
  refine ⟨_, fun i hi => ?_, exec_flgOn_of_isFlag hf s⟩
  rw [← (getLsbD_flagBit hf).1]
  exact getLsbD_finsert_of_isFlag hf (flagBit_inside hf).1 _ hi

/-- Settles O24: the flag's one bit takes the inactive value. -/
theorem flgOffResult : Obligations.FlgOffResult := by
  refine ⟨fun f hfid => decode_fieldWord (i := .flgOff f) rfl ((isFlag_iff f).2 hfid), fun f s hfid => ?_,
    fun s hopc => step_failed_of_flagOpc (by simp [hopc])⟩
  have hf := (isFlag_iff f).2 hfid
  refine ⟨_, fun i hi => ?_, exec_flgOff_of_isFlag hf s⟩
  rw [← (getLsbD_flagBit hf).2]
  exact getLsbD_finsert_of_isFlag hf (flagBit_inside hf).2 _ hi

/-- The raw value of a flag is its bit. -/
theorem fieldRaw_of_isFlag {f : Field} (h : isFlag f = true) (x : Byte) :
    fieldRaw (romF f) x = if x.getLsbD (romF f).shift.toNat then 1 else 0 := by
  have hone : (romF f).mask >>> (romF f).shift = 1 := by
    revert h
    cases f <;> decide
  rw [mask_of_isFlag h] at hone
  rw [fieldRaw, mask_of_isFlag h, BitVec.and_twoPow]
  split
  · exact hone
  · exact BitVec.zero_ushiftRight

/-- A flag is active when its bit differs from its polarity (R183). -/
theorem active_of_isFlag {f : Field} (h : isFlag f = true) (x : Byte) :
    active (romF f) x = if x.getLsbD (romF f).shift.toNat = decide ((romF f).pol = 0) then 1 else 0 := by
  rw [active, fieldRaw_of_isFlag h]
  obtain hpol | hpol := pol_eq_zero_or_one f
  · cases x.getLsbD (romF f).shift.toNat <;> simp [hpol]
  · cases x.getLsbD (romF f).shift.toNat <;> simp [hpol]

/-- Settles O25: the flag's one bit against its polarity. -/
theorem flgTestResult : Obligations.FlgTestResult := by
  refine ⟨fun f hfid => decode_fieldWord (i := .flgTest f) rfl ((isFlag_iff f).2 hfid), fun f s hfid => ?_,
    fun s hopc => step_failed_of_flagOpc (by simp [hopc])⟩
  have hf := (isFlag_iff f).2 hfid
  rw [← active_of_isFlag hf]
  exact exec_flgTest_of_isFlag hf s

/-! ### What the operations leave as it is, and what they do not see -/

/-- An operation that inserts into a field keeps every bit outside the field's mask. -/
theorem InsertsField.keeps_outside {f : Field} {s t : State} {o : Host.Outcome State Fault Refusal}
    (ho : InsertsField f s o) (h : o = .next t) (hok : t.resp.status = .ok) :
    t.resp.out.l0 &&& ~~~(romF f).mask = s.req.ins.l0 &&& ~~~(romF f).mask := by
  obtain ⟨bits, hbits, rfl⟩ | ⟨e, rfl⟩ := ho
  · obtain rfl : s.respond (okResponse _ _ _) = t := Host.Outcome.next.inj h
    exact finsert_outside (romF f) s.in0 bits hbits
  · exact absurd hok (raiseCause_not_ok h)

/-- Settles O26: each of the three operations inserts into its field, or raises. -/
theorem siblingBitsArePreserved : Obligations.SiblingBitsArePreserved := by
  intro f i s t hi h hok
  simp only [List.mem_cons, List.not_mem_nil, or_false] at hi
  obtain rfl | rfl | rfl := hi
  · exact (exec_fldPut_insertsField f s).keeps_outside h hok
  · exact (exec_flgOn_insertsField f s).keeps_outside h hok
  · exact (exec_flgOff_insertsField f s).keeps_outside h hok

theorem exec_fldGet_sameAnswer {f : Field} {s s' : State} (h : s.in0 &&& (romF f).mask = s'.in0 &&& (romF f).mask) :
    SameAnswer s s' (exec (.fldGet f) s) (exec (.fldGet f) s') := by
  simp only [exec, execFldGet, fdecode_congr h]
  split
  · exact finishOk_sameAnswer ..
  · exact raiseCause_sameAnswer ..

theorem exec_flgTest_sameAnswer {f : Field} {s s' : State} (h : s.in0 &&& (romF f).mask = s'.in0 &&& (romF f).mask) :
    SameAnswer s s' (exec (.flgTest f) s) (exec (.flgTest f) s') := by
  simp only [exec, execFlgTest, active_congr h]
  exact .ite (finishOk_sameAnswer ..) (raiseCause_sameAnswer ..)

/-- Settles O27: one response answers both states, and the first state's is `t`'s. -/
theorem fieldDecodeSeesOnlyTheMask : Obligations.FieldDecodeSeesOnlyTheMask := by
  intro f i s s' t hi hmask ht
  have hsame : SameAnswer s s' (exec i s) (exec i s') := by
    simp only [List.mem_cons, List.not_mem_nil, or_false] at hi
    obtain rfl | rfl := hi
    · exact exec_fldGet_sameAnswer hmask
    · exact exec_flgTest_sameAnswer hmask
  obtain ⟨r, hs, hs'⟩ := hsame
  obtain rfl : s.respond r = t := Host.Outcome.next.inj (hs.symm.trans ht)
  exact hs'

/-! ### Put then get, on or off then test, and idempotence -/

/-- The raw value of a field after a legal value is put into it is that value's code. -/
theorem fieldRaw_finsert {f : Field} {v : Byte} (h : inRange (romF f) v = true) (old : Byte) :
    fieldRaw (romF f) (finsert (romF f) old (fieldBits (romF f) v)) = fieldCode (romF f) v := by
  rw [fieldRaw, finsert_inside _ _ _ (fieldBits_inside h), fieldBits_ushiftRight h]

/-- A raw value that is the code of a legal value decodes to it. -/
theorem fdecode_of_fieldRaw_eq {d : FieldDesc} {x v : Byte} (hraw : fieldRaw d x = fieldCode d v)
    (hbcd : d.kind = .bcd → v.toNat ≤ 99) (h : inRange d v = true) : fdecode d x = some v := by
  unfold fdecode
  rw [hraw]
  unfold fieldCode
  cases hk : d.kind with
  | bcd =>
    obtain ⟨hok, hinv⟩ := bcdOk_dec2bcd (hbcd hk)
    simp [hok, hinv, h, toByte]
  | bin => exact if_pos h
  | enum => rfl
  | flag => rfl

theorem fdecode_finsert {f : Field} {v : Byte} (h : inRange (romF f) v = true) (old : Byte) :
    fdecode (romF f) (finsert (romF f) old (fieldBits (romF f) v)) = some v :=
  fdecode_of_fieldRaw_eq (fieldRaw_finsert h old)
    (fun hk => ((inRange_iff _ _).1 h).2.trans (hi_le_of_bcd hk)) h

theorem answersByte_fldPut {f : Field} {s : State} (h : inRange (romF f) s.in1 = true) :
    AnswersByte (exec (.fldPut f) s) (finsert (romF f) s.in0 (fieldBits (romF f) s.in1)) := by
  rw [exec_fldPut_of_inRange h]
  exact answersByte_answered_iff.2 ⟨rfl, rfl⟩

theorem answersByte_fldGet {f : Field} {s : State} {v : Byte} (h : fdecode (romF f) s.in0 = some v) :
    AnswersByte (exec (.fldGet f) s) v := by
  simp only [exec, execFldGet, h]
  exact answersByte_answered_iff.2 ⟨rfl, rfl⟩

/-- A flag's raw bit is its code. -/
theorem fieldCode_of_isFlag {f : Field} (h : isFlag f = true) (v : Byte) : fieldCode (romF f) v = v := by
  have hkind : (romF f).kind = .flag := of_decide_eq_true h
  simp only [fieldCode, hkind]

/-- A flag into which bit v is put is active when v differs from its polarity. -/
theorem active_finsert {f : Field} (hf : isFlag f = true) {v : Byte} (hv : inRange (romF f) v = true) (old : Byte) :
    active (romF f) (finsert (romF f) old (v <<< (romF f).shift)) = v ^^^ (romF f).pol := by
  have hraw := fieldRaw_finsert hv old
  rw [fieldBits, fieldCode_of_isFlag hf] at hraw
  rw [active, hraw]

theorem inRange_flagBit {f : Field} (h : isFlag f = true) :
    inRange (romF f) (onbit (romF f)) = true ∧ inRange (romF f) (offbit (romF f)) = true := by
  revert h
  cases f <;> decide

theorem finsert_finsert {d : FieldDesc} {bits : Byte} (h : bits &&& ~~~d.mask = 0) (old : Byte) :
    finsert d (finsert d old bits) bits = finsert d old bits :=
  congrArg (· ||| bits) (finsert_outside d old bits h)

theorem active_finsert_onbit {f : Field} (hf : isFlag f = true) (old : Byte) :
    active (romF f) (finsert (romF f) old (onbit (romF f) <<< (romF f).shift)) = 1 := by
  rw [active_finsert hf (inRange_flagBit hf).1, onbit, BitVec.xor_assoc, BitVec.xor_self, BitVec.xor_zero]

theorem active_finsert_offbit {f : Field} (hf : isFlag f = true) (old : Byte) :
    active (romF f) (finsert (romF f) old (offbit (romF f) <<< (romF f).shift)) = 0 := by
  rw [active_finsert hf (inRange_flagBit hf).2, offbit, BitVec.xor_self]
  rfl

theorem answersByte_flgOn {f : Field} (hf : isFlag f = true) {s : State} {b : Byte}
    (hb : finsert (romF f) s.in0 (onbit (romF f) <<< (romF f).shift) = b) : AnswersByte (exec (.flgOn f) s) b := by
  rw [exec_flgOn_of_isFlag hf, hb]
  exact answersByte_answered_iff.2 ⟨rfl, rfl⟩

theorem answersByte_flgOff {f : Field} (hf : isFlag f = true) {s : State} {b : Byte}
    (hb : finsert (romF f) s.in0 (offbit (romF f) <<< (romF f).shift) = b) : AnswersByte (exec (.flgOff f) s) b := by
  rw [exec_flgOff_of_isFlag hf, hb]
  exact answersByte_answered_iff.2 ⟨rfl, rfl⟩

theorem answersByte_flgTest {f : Field} (hf : isFlag f = true) {s : State} {b : Byte}
    (hb : active (romF f) s.in0 = b) : AnswersByte (exec (.flgTest f) s) b := by
  rw [exec_flgTest_of_isFlag hf, hb]
  exact answersByte_answered_iff.2 ⟨rfl, rfl⟩

/-- Settles O28: each later request reads the byte the first one inserted into. -/
theorem putThenGet : Obligations.PutThenGet := by
  refine ⟨fun f s x v hlo hhi => ?_, fun f s x hfid => ?_, fun f s x hfid => ?_⟩
  · have h := (inRange_iff (romF f) v).2 ⟨hlo, hhi⟩
    exact ⟨_, answersByte_fldPut h, answersByte_fldGet (fdecode_finsert h x)⟩
  · have hf := (isFlag_iff f).2 hfid
    exact ⟨_, answersByte_flgOn hf rfl, answersByte_flgTest hf (active_finsert_onbit hf x),
      answersByte_flgOn hf (finsert_finsert (flagBit_inside hf).1 x)⟩
  · have hf := (isFlag_iff f).2 hfid
    exact ⟨_, answersByte_flgOff hf rfl, answersByte_flgTest hf (active_finsert_offbit hf x),
      answersByte_flgOff hf (finsert_finsert (flagBit_inside hf).2 x)⟩

end Sys2Proof.Machine

/-! PROOFS. Many lanes at once (spec/43_datetime.md R224, spec/44_alarm.md R240, R241): `decodeLanes` and `encodeLanes`
succeed exactly when every lane does, and then lane by lane. -/

namespace Sys2Proof.Machine

/-- Lane by lane, the byte holds this value of the lane's field (42_field_ops.md R180). -/
def HoldLanes (lanes : List (Field × Byte)) (vs : List Nat) : Prop :=
  List.Forall₂ (fun p v => HoldsField (romF p.1) p.2 v) lanes vs

/-- Every lane's value is in the range of the lane's field (42_field_ops.md R181). -/
def LanesInRange (lanes : List (Field × Byte)) : Prop := ∀ p ∈ lanes, inRange (romF p.1) p.2 = true

theorem decodeLanes_of_holdLanes {lanes : List (Field × Byte)} {vs : List Nat} (h : HoldLanes lanes vs) :
    decodeLanes lanes = some (vs.map toByte) := by
  unfold HoldLanes at h
  induction h with
  | nil => rfl
  | cons hx _ ih => simp only [decodeLanes, fdecode_of_holdsField hx, ih, List.map_cons]

theorem exists_holdLanes_of_decodeLanes {lanes : List (Field × Byte)} {out : List Byte}
    (h : decodeLanes lanes = some out) : ∃ vs, HoldLanes lanes vs := by
  induction lanes generalizing out with
  | nil => exact ⟨[], .nil⟩
  | cons p rest ih =>
    obtain ⟨v, out', hv, hrest, -⟩ := decodeLanes_cons_some h
    obtain ⟨vs, hvs⟩ := ih hrest
    exact ⟨v.toNat :: vs, .cons ((fdecode_iff _ _ _).2 ⟨v, hv, rfl⟩) hvs⟩

theorem decodeLanes_of_not_holdLanes {lanes : List (Field × Byte)} (h : ¬ ∃ vs, HoldLanes lanes vs) :
    decodeLanes lanes = none := by
  cases hd : decodeLanes lanes with
  | none => rfl
  | some out => exact absurd (exists_holdLanes_of_decodeLanes hd) h

/-- Two lanes of one field that agree under the field's mask. -/
def AgreeUnderMask (p q : Field × Byte) : Prop := p.1 = q.1 ∧ p.2 &&& (romF p.1).mask = q.2 &&& (romF p.1).mask

theorem decodeLanes_congr {lanes lanes' : List (Field × Byte)} (h : List.Forall₂ AgreeUnderMask lanes lanes') :
    decodeLanes lanes = decodeLanes lanes' := by
  induction h with
  | nil => rfl
  | @cons p q _ _ hpq _ ih =>
    obtain ⟨f, x⟩ := p
    obtain ⟨g, y⟩ := q
    obtain ⟨rfl, hmask⟩ := hpq
    simp only [decodeLanes, fdecode_congr hmask, ih]

theorem encodeLanes_of_inRange {lanes : List (Field × Byte)} (h : LanesInRange lanes) :
    encodeLanes lanes = some (lanes.map fun p => fieldBits (romF p.1) p.2) := by
  induction lanes with
  | nil => rfl
  | cons p rest ih =>
    obtain ⟨hp, hrest⟩ := List.forall_mem_cons.1 h
    simp only [encodeLanes, fencode_of_inRange hp, ih hrest, List.map_cons]

theorem lanesInRange_of_encodeLanes {lanes : List (Field × Byte)} {out : List Byte}
    (h : encodeLanes lanes = some out) : LanesInRange lanes := by
  induction lanes generalizing out with
  | nil => exact List.forall_mem_nil _
  | cons p rest ih =>
    obtain ⟨b, out', hb, hrest, -⟩ := encodeLanes_cons_some h
    exact List.forall_mem_cons.2 ⟨(fencode_some hb).1, ih hrest⟩

theorem encodeLanes_of_not_inRange {lanes : List (Field × Byte)} (h : ¬ LanesInRange lanes) :
    encodeLanes lanes = none := by
  cases he : encodeLanes lanes with
  | none => rfl
  | some out => exact absurd (lanesInRange_of_encodeLanes he) h

/-- The fresh bits of a BCD field are the packed decimal: every BCD field starts at bit 0. -/
theorem fieldBits_of_bcd {f : Field} (hkind : (romF f).kind = .bcd) {v : Byte} (h : inRange (romF f) v = true) :
    fieldBits (romF f) v = packed v.toNat := by
  have hshift : (romF f).shift = 0 := by
    revert hkind
    cases f <;> decide
  have hle : v.toNat ≤ 99 := ((inRange_iff _ _).1 h).2.trans (hi_le_of_bcd hkind)
  rw [fieldBits, hshift, fieldCode_eq_ite fun _ => hle, if_pos hkind]
  exact BitVec.shiftLeft_zero _

/-- Bytes that agree under a mask agree under every part of it. -/
theorem and_eq_and_of_submask {x y m n : Byte} (hsub : m &&& n = n) (h : x &&& m = y &&& m) : x &&& n = y &&& n := by
  rw [← hsub, ← BitVec.and_assoc, h, BitVec.and_assoc]

end Sys2Proof.Machine

/-! PROOFS. The datetime operations (spec/43_datetime.md R220 to R225). -/

namespace Sys2Proof.Machine

/-! ### Seven lanes as a datetime, three as a time -/

/-- IN0..IN2 are a time of day in range (43_datetime.md, lane table). -/
def Lanes.IsTime (x : Lanes) : Prop := TimeInRange x.l0.toNat x.l1.toNat x.l2.toNat

/-- IN0..IN6 are a full datetime in range (43_datetime.md, lane table). -/
def Lanes.IsDatetime (x : Lanes) : Prop :=
  DatetimeInRange x.l0.toNat x.l1.toNat x.l2.toNat x.l3.toNat x.l4.toNat x.l5.toNat x.l6.toNat

theorem Lanes.IsDatetime.isTime {x : Lanes} (h : x.IsDatetime) : x.IsTime := h.1

/-- The three register bytes of a time (R222). -/
def packedTime (x : Lanes) : List Byte := [packed x.l0.toNat, packed x.l1.toNat, packed x.l2.toNat]

/-- The seven fresh register bytes of a datetime (R221). -/
def packedDatetime (x : Lanes) : List Byte :=
  packedTime x ++ [packed x.l3.toNat, x.l4, packed x.l5.toNat, packed x.l6.toNat]

theorem lanesInRange_timeLanes_iff (s : State) : LanesInRange (timeLanes s) ↔ s.req.ins.IsTime := by
  simp [LanesInRange, inRange_iff, romF, Lanes.IsTime, TimeInRange]

theorem lanesInRange_datetimeLanes_iff (s : State) : LanesInRange (datetimeLanes s) ↔ s.req.ins.IsDatetime := by
  simp [LanesInRange, inRange_iff, romF, Lanes.IsDatetime, DatetimeInRange, TimeInRange, and_assoc]

theorem holdLanes_datetimeLanes_iff (st : State) (s mi h d w mo y : Nat) :
    HoldLanes (datetimeLanes st) [s, mi, h, d, w, mo, y] ↔ HoldsDatetime st.req.ins s mi h d w mo y := by
  have hyears : st.in6 &&& 255#8 = st.in6 := BitVec.and_allOnes
  have hlanes : HoldLanes (datetimeLanes st) [s, mi, h, d, w, mo, y] ↔
      (HoldsBcd (st.in0 &&& 0x7F) s ∧ s ≤ 59) ∧ (HoldsBcd (st.in1 &&& 0x7F) mi ∧ mi ≤ 59) ∧
      (HoldsBcd (st.in2 &&& 0x3F) h ∧ h ≤ 23) ∧ (HoldsBcd (st.in3 &&& 0x3F) d ∧ 1 ≤ d ∧ d ≤ 31) ∧
      ((st.in4 &&& 0x07).toNat = w ∧ w ≤ 6) ∧ (HoldsBcd (st.in5 &&& 0x1F) mo ∧ 1 ≤ mo ∧ mo ≤ 12) ∧
      (HoldsBcd st.in6 y ∧ y ≤ 99) := by
    simp [HoldLanes, HoldsField, romF, hyears, eq_comm (a := w)]
  rw [hlanes]
  exact ⟨fun ⟨hs, hmi, hh, hd, hw, hmo, hy⟩ => ⟨hs, hmi, hh, hd, hw, hmo, hy⟩,
    fun ⟨hs, hmi, hh, hd, hw, hmo, hy⟩ => ⟨hs, hmi, hh, hd, hw, hmo, hy⟩⟩

theorem exists_holdLanes_datetimeLanes_iff (st : State) :
    (∃ vs, HoldLanes (datetimeLanes st) vs) ↔ ∃ s mi h d w mo y, HoldsDatetime st.req.ins s mi h d w mo y := by
  constructor
  · rintro ⟨vs, hvs⟩
    match vs, List.Forall₂.length_eq hvs with
    | [s, mi, h, d, w, mo, y], _ => exact ⟨s, mi, h, d, w, mo, y, (holdLanes_datetimeLanes_iff ..).1 hvs⟩
  · rintro ⟨s, mi, h, d, w, mo, y, hd⟩
    exact ⟨_, (holdLanes_datetimeLanes_iff ..).2 hd⟩

theorem encodeLanes_timeLanes {st : State} (h : st.req.ins.IsTime) :
    encodeLanes (timeLanes st) = some (packedTime st.req.ins) := by
  have hr := (lanesInRange_timeLanes_iff st).2 h
  rw [encodeLanes_of_inRange hr]
  simp only [LanesInRange, List.forall_mem_cons] at hr
  obtain ⟨hs, hmi, hh, -⟩ := hr
  simp only [packedTime, List.map_cons, List.map_nil, fieldBits_of_bcd rfl hs, fieldBits_of_bcd rfl hmi,
    fieldBits_of_bcd rfl hh]

theorem fieldBits_weekdays (w : Byte) : fieldBits (romF .weekdays) w = w := BitVec.shiftLeft_zero _

theorem encodeLanes_datetimeLanes {st : State} (h : st.req.ins.IsDatetime) :
    encodeLanes (datetimeLanes st) = some (packedDatetime st.req.ins) := by
  have hr := (lanesInRange_datetimeLanes_iff st).2 h
  rw [encodeLanes_of_inRange hr]
  simp only [LanesInRange, List.cons_append, List.nil_append, List.forall_mem_cons] at hr
  obtain ⟨hs, hmi, hh, hd, -, hmo, hy, -⟩ := hr
  simp [packedDatetime, packedTime, fieldBits_weekdays, fieldBits_of_bcd rfl hs, fieldBits_of_bcd rfl hmi,
    fieldBits_of_bcd rfl hh, fieldBits_of_bcd rfl hd, fieldBits_of_bcd rfl hmo, fieldBits_of_bcd rfl hy]

/-! ### What the three operations answer -/

/-- The century bit DT_UNPACK answers is the raw value of the field C (40_register_map.md R136). -/
theorem fieldRaw_c (x : Byte) : fieldRaw (romF .c) x = if 128 ≤ x.toNat then 1 else 0 := by
  have hbit : x.getLsbD 7 = decide (128 ≤ x.toNat) := BitVec.msb_eq_decide x
  have hraw : fieldRaw (romF .c) x = if x.getLsbD 7 then 1 else 0 := fieldRaw_of_isFlag rfl x
  simp only [hraw, hbit, decide_eq_true_eq]

theorem exec_dtUnpack_of_holdsDatetime {st : State} {s mi h d w mo y : Nat}
    (hd : HoldsDatetime st.req.ins s mi h d w mo y) :
    exec .dtUnpack st = answered st ⟨.ok, ⟨toByte s, toByte mi, toByte h, toByte d, toByte w, toByte mo, toByte y,
      if 128 ≤ st.req.ins.l5.toNat then 1 else 0⟩, 0x02, 7⟩ := by
  rw [← fieldRaw_c]
  simp only [exec, execDtUnpack, decodeLanes_of_holdLanes ((holdLanes_datetimeLanes_iff ..).2 hd)]
  rfl

theorem exec_dtUnpack_of_not_holdsDatetime {st : State}
    (hd : ¬ ∃ s mi h d w mo y, HoldsDatetime st.req.ins s mi h d w mo y) :
    exec .dtUnpack st = failed st .decodeAnomaly := by
  rw [← exists_holdLanes_datetimeLanes_iff] at hd
  simp only [exec, execDtUnpack, decodeLanes_of_not_holdLanes hd]
  rfl

/-- OR with C at its default 0 in register 0x07, and with nothing elsewhere, leaves the packed bytes (R221, R223). -/
theorem orLanes_centuryDefault (x : Lanes) :
    orLanes (packedDatetime x) [0, 0, 0, 0, 0, centuryDefault <<< 7, 0] = packedDatetime x := by
  simp [orLanes, packedDatetime, packedTime, centuryDefault]

theorem exec_dtPack_of_isDatetime {st : State} (h : st.req.ins.IsDatetime) :
    exec .dtPack st = answered st ⟨.ok, lanesOf (packedDatetime st.req.ins), 0x02, 7⟩ := by
  simp only [exec, execDtPack, encodeLanes_datetimeLanes h, orLanes_centuryDefault]
  rfl

theorem exec_dtPack_of_not_isDatetime {st : State} (h : ¬ st.req.ins.IsDatetime) :
    exec .dtPack st = failed st .invalidArgument := by
  rw [← lanesInRange_datetimeLanes_iff] at h
  simp only [exec, execDtPack, encodeLanes_of_not_inRange h]
  rfl

theorem exec_tmPack_of_isTime {st : State} (h : st.req.ins.IsTime) :
    exec .tmPack st = answered st ⟨.ok, lanesOf (packedTime st.req.ins), 0x02, 3⟩ := by
  simp only [exec, execTmPack, encodeLanes_timeLanes h]
  rfl

theorem exec_tmPack_of_not_isTime {st : State} (h : ¬ st.req.ins.IsTime) :
    exec .tmPack st = failed st .invalidArgument := by
  rw [← lanesInRange_timeLanes_iff] at h
  simp only [exec, execTmPack, encodeLanes_of_not_inRange h]
  rfl

/-- Settles O30: the two cases of the seven masked bytes. -/
theorem dtUnpackResult : Obligations.DtUnpackResult :=
  ⟨rfl, fun _ _ _ _ _ _ _ _ => exec_dtUnpack_of_holdsDatetime, fun _ => exec_dtUnpack_of_not_holdsDatetime,
    fun _ => step_failed_of_lowOf_ne_zero (i := .dtUnpack) rfl⟩

/-- Settles O31: the two cases of the seven values. -/
theorem dtPackResult : Obligations.DtPackResult :=
  ⟨rfl, fun _ => exec_dtPack_of_isDatetime, fun _ => exec_dtPack_of_not_isDatetime,
    fun _ => step_failed_of_lowOf_ne_zero (i := .dtPack) rfl⟩

/-- Settles O32: the two cases of the three values. -/
theorem tmPackResult : Obligations.TmPackResult :=
  ⟨rfl, fun _ => exec_tmPack_of_isTime, fun _ => exec_tmPack_of_not_isTime,
    fun _ => step_failed_of_lowOf_ne_zero (i := .tmPack) rfl⟩

/-! ### Fresh bytes read back -/

theorem toByte_toNat (x : Byte) : toByte x.toNat = x := by simp [toByte]

theorem toNat_packed {n : Nat} (h : n ≤ 99) : (packed n).toNat = 16 * (n / 10) + n % 10 := by
  rw [packed_eq_dec2bcd h, toNat_dec2bcd h]

theorem packed_and_lowBits {n w : Nat} {m : Byte} (hm : m.toNat = 2 ^ w - 1) (hle : n ≤ 99)
    (hlt : 16 * (n / 10) + n % 10 < 2 ^ w) : packed n &&& m = packed n := by
  refine and_eq_self_of_le_lowBits hm ?_
  rw [toNat_packed hle]
  omega

theorem holdsBcd_packed_and {n w : Nat} {m : Byte} (hm : m.toNat = 2 ^ w - 1) (hle : n ≤ 99)
    (hlt : 16 * (n / 10) + n % 10 < 2 ^ w) : HoldsBcd (packed n &&& m) n :=
  holdsBcd_iff_eq_packed.2 ⟨hle, packed_and_lowBits hm hle hlt⟩

/-- Seven fresh bytes hold the datetime they were packed from, whatever the eighth lane holds. -/
theorem holdsDatetime_packedDatetime {x : Lanes} (hx : x.IsDatetime) (rest : List Byte) :
    HoldsDatetime (lanesOf (packedDatetime x ++ rest)) x.l0.toNat x.l1.toNat x.l2.toNat x.l3.toNat x.l4.toNat
      x.l5.toNat x.l6.toNat := by
  obtain ⟨⟨hs, hmi, hh⟩, hd₁, hd, hw, hmo₁, hmo, hy⟩ := hx
  have hweekday : x.l4 &&& 0x07 = x.l4 := and_eq_self_of_le_lowBits (w := 3) rfl (hw.trans (by decide))
  exact ⟨⟨holdsBcd_packed_and (w := 7) rfl (by omega) (by omega), hs⟩,
    ⟨holdsBcd_packed_and (w := 7) rfl (by omega) (by omega), hmi⟩,
    ⟨holdsBcd_packed_and (w := 6) rfl (by omega) (by omega), hh⟩,
    ⟨holdsBcd_packed_and (w := 6) rfl (by omega) (by omega), hd₁, hd⟩,
    ⟨congrArg BitVec.toNat hweekday, hw⟩,
    ⟨holdsBcd_packed_and (w := 5) rfl (by omega) (by omega), hmo₁, hmo⟩,
    ⟨holdsBcd_iff_eq_packed.2 ⟨hy, rfl⟩, hy⟩⟩

/-- A packed month leaves the century bit 0. -/
theorem packed_month_and_century {x : Lanes} (hx : x.IsDatetime) : packed x.l5.toNat &&& 0x80 = 0 := by
  obtain ⟨-, -, -, -, -, hmo, -⟩ := hx
  have hlow : packed x.l5.toNat &&& 0x1F = packed x.l5.toNat :=
    packed_and_lowBits (w := 5) rfl (by omega) (by omega)
  rw [← hlow, BitVec.and_assoc]
  exact BitVec.and_zero

theorem exec_dtUnpack_packedDatetime {st : State} {x : Lanes} (hx : x.IsDatetime) {rest : List Byte}
    (hins : st.req.ins = lanesOf (packedDatetime x ++ rest)) :
    exec .dtUnpack st = answered st ⟨.ok, { x with l7 := 0 }, 0x02, 7⟩ := by
  have hmonth : st.req.ins.l5 = packed x.l5.toNat := congrArg Lanes.l5 hins
  have hcentury : fieldRaw (romF .c) (packed x.l5.toNat) = 0 :=
    congrArg (fun z : Byte => z >>> 7) (packed_month_and_century hx)
  rw [exec_dtUnpack_of_holdsDatetime (hins ▸ holdsDatetime_packedDatetime hx rest), ← fieldRaw_c, hmonth, hcentury]
  simp only [toByte_toNat]

/-! ### The laws of the three operations -/

/-- An OK answer of DT_PACK is the seven fresh bytes of an in-range datetime. -/
theorem dtPack_ok {st t : State} (h : exec .dtPack st = .next t) (hok : t.resp.status = .ok) :
    st.req.ins.IsDatetime ∧ t.resp = ⟨.ok, lanesOf (packedDatetime st.req.ins), 0x02, 7⟩ := by
  by_cases hx : st.req.ins.IsDatetime
  · rw [exec_dtPack_of_isDatetime hx] at h
    cases h
    exact ⟨hx, rfl⟩
  · rw [exec_dtPack_of_not_isDatetime hx] at h
    cases h
    cases hok

/-- DT_UNPACK reads its lanes through the seven masks, and bit 7 of IN5 besides. -/
theorem exec_dtUnpack_sameAnswer {st st' : State}
    (hlanes : List.Forall₂ AgreeUnderMask (datetimeLanes st) (datetimeLanes st'))
    (hcentury : st.in5 &&& 0x80 = st'.in5 &&& 0x80) :
    SameAnswer st st' (exec .dtUnpack st) (exec .dtUnpack st') := by
  simp only [exec, execDtUnpack, decodeLanes_congr hlanes, hcentury]
  split
  · exact finishOk_sameAnswer ..
  · exact raiseCause_sameAnswer ..

/-- Settles O33: fresh bytes hold the datetime they were packed from, the first three of them are TM_PACK's, and
DT_UNPACK's masks are the fields'. -/
theorem datetimeLaws : Obligations.DatetimeLaws := by
  refine ⟨fun st s mi h d w mo y i7 j7 hx => ?_, fun st st' t u h0 h1 h2 ht hu hok => ?_,
    fun st st' t h0 h1 h2 h3 h4 h5 h6 ht => ?_⟩
  · have hx : Lanes.IsDatetime ⟨s, mi, h, d, w, mo, y, i7⟩ := hx
    exact ⟨_, _, exec_dtPack_of_isDatetime hx, exec_dtUnpack_packedDatetime hx (rest := [j7]) rfl, rfl⟩
  · obtain ⟨hx, ht⟩ := dtPack_ok ht hok
    have htime : st'.req.ins.IsTime := by
      have := hx.isTime
      rwa [Lanes.IsTime, h0, h1, h2] at this
    rw [exec_tmPack_of_isTime htime] at hu
    cases hu
    simp [ht, packedTime, packedDatetime, h0, h1, h2]
  · have hmonth : st.req.ins.l5 &&& 0x1F = st'.req.ins.l5 &&& 0x1F := and_eq_and_of_submask (by decide) h5
    have hcentury : st.req.ins.l5 &&& 0x80 = st'.req.ins.l5 &&& 0x80 := and_eq_and_of_submask (by decide) h5
    have hlanes : List.Forall₂ AgreeUnderMask (datetimeLanes st) (datetimeLanes st') :=
      .cons ⟨rfl, h0⟩ (.cons ⟨rfl, h1⟩ (.cons ⟨rfl, h2⟩ (.cons ⟨rfl, h3⟩ (.cons ⟨rfl, h4⟩
        (.cons ⟨rfl, hmonth⟩ (.cons ⟨rfl, congrArg (· &&& 0xFF) h6⟩ .nil))))))
    obtain ⟨r, hr, hr'⟩ := exec_dtUnpack_sameAnswer hlanes hcentury
    obtain rfl : st.respond r = t := Host.Outcome.next.inj (hr.symm.trans ht)
    exact hr'

/-! ### The century (R223) -/

theorem fieldBits_c {v : Byte} (h : v.toNat ≤ 1) : fieldBits (romF .c) v = centuryBits v.toNat := by
  obtain rfl | rfl : v = 0 ∨ v = 1 := by bv_omega
  · rfl
  · rfl

/-- Into a byte with C = 0, any century goes by OR. -/
theorem finsert_c {old : Byte} (h : old &&& 0x80 = 0) (bits : Byte) : finsert (romF .c) old bits = old ||| bits :=
  congrArg (· ||| bits) (and_eq_self_of_and_not_eq_zero (m := ~~~0x80) h)

theorem exec_centuryInstr_of_le {c : CenturyWrite} (hc : centuryValue c ≤ 1) {st : State} {old : Byte}
    (hins : st.req.ins = lanesOf (old :: centuryOperands c)) (hold : old &&& 0x80 = 0) :
    exec (centuryInstr c) st = answered st ⟨.ok, lanesOf [old ||| centuryBits (centuryValue c)], 0x07, 1⟩ := by
  have h0 : st.in0 = old := congrArg Lanes.l0 hins
  rw [← finsert_c hold, ← h0]
  cases c with
  | put v =>
    have h1 : st.in1 = v := congrArg Lanes.l1 hins
    subst h1
    exact fieldBits_c hc ▸ exec_fldPut_of_inRange ((inRange_iff (romF .c) _).2 ⟨Nat.zero_le _, hc⟩)
  | on => exact exec_flgOn_of_isFlag rfl st
  | off => exact exec_flgOff_of_isFlag rfl st

theorem exec_centuryInstr_of_gt {c : CenturyWrite} (hc : ¬ centuryValue c ≤ 1) {st : State} {old : Byte}
    (hins : st.req.ins = lanesOf (old :: centuryOperands c)) :
    exec (centuryInstr c) st = failed st .invalidArgument := by
  cases c with
  | put v =>
    have h1 : st.in1 = v := congrArg Lanes.l1 hins
    exact exec_fldPut_of_not_inRange (f := .c) fun h => hc (h1 ▸ ((inRange_iff _ _).1 h).2)
  | on => exact absurd le_rfl hc
  | off => exact absurd (Nat.zero_le 1) hc

/-- Settles O34: a packed month has bit 7 clear, MONTHS' mask does not hold bit 7, and C's mask is bit 7. -/
theorem centuryResetByPackKeptByPut : Obligations.CenturyResetByPackKeptByPut := by
  refine ⟨fun st t ht => ?_, fun st hlo hhi => ?_, fun st t c ht hok hc => ?_⟩
  · by_cases hx : st.req.ins.IsDatetime
    · rw [exec_dtPack_of_isDatetime hx] at ht
      cases ht
      exact packed_month_and_century hx
    · rw [exec_dtPack_of_not_isDatetime hx] at ht
      cases ht
      exact BitVec.zero_and
  · have h := (inRange_iff (romF .months) st.in1).2 ⟨hlo, hhi⟩
    exact ⟨_, exec_fldPut_of_inRange h, rfl,
      and_eq_and_of_submask (by decide) (finsert_outside (romF .months) st.in0 _ (fieldBits_inside h))⟩
  · obtain ⟨hx, ht⟩ := dtPack_ok ht hok
    have hold : t.resp.out.l5 &&& 0x80 = 0 := ht ▸ packed_month_and_century hx
    rw [exec_centuryInstr_of_le hc (withIns_ins ..) hold]
    exact answersByte_answered_iff.2 ⟨rfl, rfl⟩

end Sys2Proof.Machine

/-! PROOFS. The datetime host programs on the fixture (spec/43_datetime.md R222, R223, R225; spec/30_encoding.md R79;
spec/70_reset_and_hazards.md R334, R336, R338; log entry 6). -/

namespace Sys2Proof.Machine

/-! ### One request, one write, one read -/

/-- The block with operation i and these IN bytes driven on its request ports. -/
def Bench.driven (i : Instr) (bytes : List Byte) (b : Bench) : State := b.block.present ⟨encode i, lanesOf bytes⟩

@[simp] theorem driven_ins (i : Instr) (bytes : List Byte) (b : Bench) :
    (b.driven i bytes).req.ins = lanesOf bytes := rfl

/-- The bench after the block has answered that request with r. -/
def Bench.answering (i : Instr) (bytes : List Byte) (r : Response) (b : Bench) : Bench :=
  { b with block := (b.driven i bytes).respond r }

@[simp] theorem answering_resp (i : Instr) (bytes : List Byte) (r : Response) (b : Bench) :
    (b.answering i bytes r).block.resp = r := rfl

theorem issue_of_exec {i : Instr} {bytes : List Byte} {b : Bench} {r : Response}
    (h : exec i (b.driven i bytes) = answered (b.driven i bytes) r) :
    b.issue i bytes = some (b.answering i bytes r) := by
  have hstep : step (b.driven i bytes) = .next ((b.driven i bytes).respond r) := (step_of_cmd_eq_encode rfl).trans h
  unfold Bench.driven at hstep
  simp only [Bench.issue, Bench.request, hstep]
  rfl

/-- On the fixture, `b'` is `b` with these bytes written from register a upward, and every other register kept. -/
structure Bench.Wrote (a : Nat) (bytes : List Byte) (b b' : Bench) : Prop where
  schedule : b'.schedule = b.schedule
  reg : ∀ k : Fin 16, b'.reg[k] =
    if a ≤ k.val ∧ k.val < a + bytes.length then bytes.getD (k.val - a) 0 else b.reg[k]

theorem wr_wrote {a : Nat} {bytes : List Byte} (hlen : a + bytes.length ≤ 16) (b : Bench) :
    ∃ b', b.wr a bytes = some b' ∧ b'.block = b.block ∧ b.Wrote a bytes b' := by
  obtain ⟨reg', hwrite, hreg⟩ := writeRegs_spec bytes b.reg a hlen
  exact ⟨{ b with reg := reg' }, by simp only [Bench.wr, hwrite], rfl, rfl, hreg⟩

/-- An OK answer is written back: RLEN bytes from RADDR (R338). -/
theorem commit_of_ok {b : Bench} {data : List Byte} (hok : b.block.resp.status = .ok)
    (hdata : b.block.resp.out.toList.take b.block.resp.rlen.toNat = data)
    (hlen : b.block.resp.raddr.toNat + data.length ≤ 16) :
    ∃ b', b.commit = some b' ∧ b'.block = b.block ∧ b.Wrote b.block.resp.raddr.toNat data b' := by
  subst hdata
  obtain ⟨b', hwr, hwrote⟩ := wr_wrote hlen b
  exact ⟨b', (if_pos hok).trans hwr, hwrote⟩

theorem issueThenCommit_of_ok {i : Instr} {bytes data : List Byte} {b : Bench} {out : Lanes} {raddr : Byte}
    {rlen : BitVec 4} (h : exec i (b.driven i bytes) = answered (b.driven i bytes) ⟨.ok, out, raddr, rlen⟩)
    (hdata : out.toList.take rlen.toNat = data) (hlen : raddr.toNat + data.length ≤ 16) :
    ∃ b', b.issueThenCommit i bytes = some b' ∧ b'.block.resp.status = .ok ∧ b.Wrote raddr.toNat data b' := by
  obtain ⟨b', hcommit, hblock, hschedule, hreg⟩ :=
    commit_of_ok (b := b.answering i bytes ⟨.ok, out, raddr, rlen⟩) rfl hdata hlen
  refine ⟨b', ?_, congrArg (fun s : State => s.resp.status) hblock, hschedule, hreg⟩
  simp only [Bench.issueThenCommit, issue_of_exec h, hcommit]

/-- An error writes nothing (R338). -/
theorem issueThenCommit_of_failed {i : Instr} {bytes : List Byte} {b : Bench} {st : Status} (hst : st ≠ .ok)
    (h : exec i (b.driven i bytes) = failed (b.driven i bytes) st) :
    b.issueThenCommit i bytes = some (b.answering i bytes ⟨st, Lanes.zero, 0, 0⟩) := by
  simp only [Bench.issueThenCommit, issue_of_exec h]
  exact if_neg hst

/-- The n registers from a upward, as `RD a, n` reads them on a quiet fixture. -/
def Bench.registers (a n : Nat) (b : Bench) : List Byte := (List.range n).map fun k => b.reg.toList.getD (a + k) 0

theorem registers_one {a : Nat} (h : a < 16) (b : Bench) : b.registers a 1 = [b.reg[a]] := by
  simp [Bench.registers, List.getD, h]

/-- What was written is read back. -/
theorem Bench.Wrote.registers_eq {a : Nat} {bytes : List Byte} {b b' : Bench} (h : b.Wrote a bytes b')
    (hlen : a + bytes.length ≤ 16) : b'.registers a bytes.length = bytes := by
  apply List.ext_getElem
  · simp [Bench.registers]
  · intro k _ hk
    have hlt : a + k < 16 := by omega
    have hreg : b'.reg[a + k] = bytes.getD (a + k - a) 0 := (h.reg ⟨a + k, hlt⟩).trans (if_pos (by simp [hk]))
    simp [Bench.registers, List.getD, hk, hlt, hreg]

theorem readThenIssue_of_exec {i : Instr} {a n : Nat} {bytes more : List Byte} {b : Bench} {r : Response}
    (hquiet : b.schedule = []) (hlen : a + n ≤ 16) (hbytes : b.registers a n = bytes)
    (h : exec i (b.driven i (bytes ++ more)) = answered (b.driven i (bytes ++ more)) r) :
    b.readThenIssue i a n more = some (b.answering i (bytes ++ more) r) := by
  subst hbytes
  exact (readThenIssue_eq_issue hquiet hlen).trans (issue_of_exec h)

/-- Read-modify-write of one field on a quiet fixture: the new byte goes to the field's register. -/
theorem rmw_of_exec {i : Instr} {f : Field} {more : List Byte} {b : Bench} {old new : Byte} (hquiet : b.schedule = [])
    (hold : b.registers (romF f).reg.toNat 1 = [old])
    (h : exec i (b.driven i (old :: more)) =
      answered (b.driven i (old :: more)) ⟨.ok, lanesOf [new], (romF f).reg, 1⟩) :
    ∃ b', b.rmw i f more = some b' ∧ b'.block.resp.status = .ok ∧ b.Wrote (romF f).reg.toNat [new] b' := by
  have hreg : (romF f).reg.toNat + 1 ≤ 16 := romF_reg_lt f
  have hread := readThenIssue_of_exec hquiet hreg hold h
  obtain ⟨b', hcommit, hblock, hschedule, hregs⟩ :=
    commit_of_ok (b := b.answering i (old :: more) ⟨.ok, lanesOf [new], (romF f).reg, 1⟩) rfl rfl hreg
  refine ⟨b', ?_, congrArg (fun s : State => s.resp.status) hblock, hschedule, hregs⟩
  simp only [Bench.rmw, hread]
  exact hcommit

/-! ### set_time, set_datetime and get_datetime -/

@[simp] theorem packedTime_length (x : Lanes) : (packedTime x).length = 3 := rfl

@[simp] theorem packedDatetime_length (x : Lanes) : (packedDatetime x).length = 7 := rfl

/-- Settles O45: TM_PACK's three bytes go to registers 0x02 to 0x04, and an error writes nothing. -/
theorem setTimeLeavesTheDate : Obligations.SetTimeLeavesTheDate := by
  intro b s mi h
  by_cases htime : TimeInRange s.toNat mi.toNat h.toNat
  · obtain ⟨b', hset, hok, hwrote⟩ := issueThenCommit_of_ok (data := packedTime (lanesOf [s, mi, h]))
      (exec_tmPack_of_isTime (st := b.driven .tmPack [s, mi, h]) htime) rfl (by simp)
    refine ⟨b', hset, hwrote.schedule, fun _ => ⟨hok, fun a => ?_⟩, fun hnot => absurd htime hnot⟩
    rw [hwrote.reg a]
    fin_cases a <;> rfl
  · exact ⟨_, issueThenCommit_of_failed (by decide) (exec_tmPack_of_not_isTime htime), rfl,
      fun hin => absurd hin htime, fun _ => ⟨rfl, rfl⟩⟩

theorem setDatetime_of_isDatetime {s mi h d w mo y : Byte} (hx : (lanesOf [s, mi, h, d, w, mo, y]).IsDatetime)
    (b : Bench) : ∃ b', b.setDatetime s mi h d w mo y = some b' ∧ b'.block.resp.status = .ok ∧
      b.Wrote 2 (packedDatetime (lanesOf [s, mi, h, d, w, mo, y])) b' :=
  issueThenCommit_of_ok (raddr := 0x02) (exec_dtPack_of_isDatetime hx) rfl (by simp)

/-- One read of get_datetime on a quiet fixture whose registers hold fresh bytes. -/
theorem read_packedDatetime {x : Lanes} (hx : x.IsDatetime) {b : Bench} (hquiet : b.schedule = [])
    (hreg : b.registers 2 7 = packedDatetime x) : b.readThenIssue .dtUnpack 0x02 7 [] =
      some (b.answering .dtUnpack (packedDatetime x ++ []) ⟨.ok, { x with l7 := 0 }, 0x02, 7⟩) :=
  readThenIssue_of_exec hquiet (by decide) hreg (exec_dtUnpack_packedDatetime hx (driven_ins ..))

/-- With or without the retry at seconds 59 (R334), since the second read finds the registers as the first did. -/
theorem getDatetime_packedDatetime {x : Lanes} (hx : x.IsDatetime) {b : Bench} (hquiet : b.schedule = [])
    (hreg : b.registers 2 7 = packedDatetime x) :
    ∃ b', b.getDatetime = some b' ∧ b'.block.resp = ⟨.ok, { x with l7 := 0 }, 0x02, 7⟩ ∧ b'.reg = b.reg := by
  simp only [Bench.getDatetime, read_packedDatetime hx hquiet hreg]
  split
  · exact ⟨_, read_packedDatetime hx hquiet hreg, rfl, rfl⟩
  · exact ⟨_, rfl, rfl, rfl⟩

/-- Settles O46: get_datetime reads the seven bytes set_datetime wrote. -/
theorem setThenGetDatetime : Obligations.SetThenGetDatetime := by
  intro b s mi h d w mo y hquiet hx
  obtain ⟨b', hset, -, hwrote⟩ := setDatetime_of_isDatetime hx b
  obtain ⟨b'', hget, hresp, hreg⟩ := getDatetime_packedDatetime (x := lanesOf [s, mi, h, d, w, mo, y]) hx
    (hwrote.schedule.trans hquiet) (hwrote.registers_eq (by simp))
  refine ⟨b', b'', hset, hget, hresp, hreg, fun a ha => ?_⟩
  rw [hwrote.reg a, if_neg (by rw [packedDatetime_length]; omega)]

/-! ### Keeping the century (R223, R336) -/

/-- The seven fresh bytes of a datetime with a century in bit 7 of the month's (R223). -/
def packedWithCentury (x : Lanes) (century : Nat) : List Byte :=
  packedTime x ++ [packed x.l3.toNat, x.l4, packed x.l5.toNat ||| centuryBits century, packed x.l6.toNat]

@[simp] theorem packedWithCentury_length (x : Lanes) (century : Nat) : (packedWithCentury x century).length = 7 := rfl

/-- On DT_PACK's OK answer, a legal century is put into OUT5 and all seven bytes are written. -/
theorem insertCentury_of_le {c : CenturyWrite} (hc : centuryValue c ≤ 1) {x : Lanes} (hx : x.IsDatetime) {b : Bench}
    (hresp : b.block.resp = ⟨.ok, lanesOf (packedDatetime x), 0x02, 7⟩) :
    ∃ b', b.insertCentury c = some b' ∧ b'.block.resp.status = .ok ∧
      b.Wrote 2 (packedWithCentury x (centuryValue c)) b' := by
  have hold : b.block.resp.out.l5 &&& 0x80 = 0 := hresp ▸ packed_month_and_century hx
  have hissue := issue_of_exec (exec_centuryInstr_of_le hc (driven_ins _ _ b) hold)
  obtain ⟨b', hwr, hblock, hschedule, hreg⟩ := wr_wrote (a := 2) (bytes := packedWithCentury x (centuryValue c))
    (by simp) (b.answering (centuryInstr c) (b.block.resp.out.l5 :: centuryOperands c)
      ⟨.ok, lanesOf [b.block.resp.out.l5 ||| centuryBits (centuryValue c)], 0x07, 1⟩)
  refine ⟨b', ?_, congrArg (fun s : State => s.resp.status) hblock, hschedule, hreg⟩
  simp only [Bench.insertCentury, hissue]
  rw [answering_resp, if_pos rfl, ← hwr, hresp]
  rfl

/-- A century above 1 is an invalid argument, and nothing is written (R338). -/
theorem insertCentury_of_gt {c : CenturyWrite} (hc : ¬ centuryValue c ≤ 1) (b : Bench) :
    ∃ b', b.insertCentury c = some b' ∧ b'.block.resp.status = .invalidArgument ∧ b'.reg = b.reg ∧
      b'.schedule = b.schedule := by
  have hissue := issue_of_exec
    (exec_centuryInstr_of_gt hc (driven_ins _ (b.block.resp.out.l5 :: centuryOperands c) b))
  simp only [Bench.insertCentury, hissue, answering_resp]
  exact ⟨_, if_neg (by decide), rfl, rfl, rfl⟩

section
variable {s mi h d w mo y : Byte} {c : CenturyWrite}

theorem setDatetimeWithCentury_of_legal (hx : (lanesOf [s, mi, h, d, w, mo, y]).IsDatetime) (hc : centuryValue c ≤ 1)
    (b : Bench) : ∃ b', b.setDatetimeWithCentury s mi h d w mo y c = some b' ∧ b'.block.resp.status = .ok ∧
      b.Wrote 2 (packedWithCentury (lanesOf [s, mi, h, d, w, mo, y]) (centuryValue c)) b' := by
  have hissue := issue_of_exec (exec_dtPack_of_isDatetime (st := b.driven .dtPack [s, mi, h, d, w, mo, y]) hx)
  obtain ⟨b', hinsert, hok, hschedule, hreg⟩ := insertCentury_of_le hc hx (answering_resp _ _ _ b)
  refine ⟨b', ?_, hok, hschedule, hreg⟩
  rw [← hinsert]
  simp only [Bench.setDatetimeWithCentury, hissue]
  rfl

theorem setDatetimeWithCentury_of_illegal
    (hnot : ¬ ((lanesOf [s, mi, h, d, w, mo, y]).IsDatetime ∧ centuryValue c ≤ 1)) (b : Bench) :
    ∃ b', b.setDatetimeWithCentury s mi h d w mo y c = some b' ∧ b'.block.resp.status = .invalidArgument ∧
      b'.reg = b.reg ∧ b'.schedule = b.schedule := by
  by_cases hx : (lanesOf [s, mi, h, d, w, mo, y]).IsDatetime
  · have hissue := issue_of_exec (exec_dtPack_of_isDatetime (st := b.driven .dtPack [s, mi, h, d, w, mo, y]) hx)
    simp only [Bench.setDatetimeWithCentury, hissue]
    exact insertCentury_of_gt (fun hc => hnot ⟨hx, hc⟩) _
  · have hissue := issue_of_exec (exec_dtPack_of_not_isDatetime (st := b.driven .dtPack [s, mi, h, d, w, mo, y]) hx)
    simp only [Bench.setDatetimeWithCentury, hissue, answering_resp]
    exact ⟨_, if_neg (by decide), rfl, rfl, rfl⟩

end

/-- Settles O51: both operands legal, or one of them not. -/
theorem centuryIsWrittenWithTheDatetime : Obligations.CenturyIsWrittenWithTheDatetime := by
  intro b s mi h d w mo y c
  by_cases hin : (lanesOf [s, mi, h, d, w, mo, y]).IsDatetime ∧ centuryValue c ≤ 1
  · obtain ⟨b', hset, hok, hwrote⟩ := setDatetimeWithCentury_of_legal hin.1 hin.2 b
    refine ⟨b', hset, hwrote.schedule, fun _ _ => ⟨hok, fun a => ?_⟩, fun hnot => absurd hin hnot⟩
    rw [hwrote.reg a]
    fin_cases a <;> rfl
  · obtain ⟨b', hset, hstatus, hreg, hschedule⟩ := setDatetimeWithCentury_of_illegal hin b
    exact ⟨b', hset, hschedule, fun hx hc => absurd ⟨hx, hc⟩ hin, fun _ => ⟨hstatus, hreg⟩⟩

theorem fieldRaw_c_le (x : Byte) : (fieldRaw (romF .c) x).toNat ≤ 1 := by
  rw [fieldRaw_c]
  split <;> decide

/-- The raw century bit, put back into register position, is bit 7 of the byte it was read from. -/
theorem centuryBits_fieldRaw_c (x : Byte) : centuryBits (fieldRaw (romF .c) x).toNat = x &&& 0x80 := by
  have hbit : x &&& 0x80 = if x.getLsbD 7 then 0x80 else 0 := BitVec.and_twoPow x 7
  have hraw : fieldRaw (romF .c) x = if x.getLsbD 7 then 1 else 0 := fieldRaw_of_isFlag rfl x
  rw [hbit, hraw]
  split
  · rfl
  · rfl

/-- FLD_GET C never fails, and gives the raw bit (42_field_ops.md R180). -/
theorem readField_c {b : Bench} (hquiet : b.schedule = []) :
    b.readField .c =
      some (b.answering (.fldGet .c) [b.reg[7]] ⟨.ok, lanesOf [fieldRaw (romF .c) b.reg[7]], 0x07, 1⟩) :=
  readThenIssue_of_exec hquiet (romF_reg_lt .c) (registers_one (by decide) b) rfl

theorem finsert_months {mo : Byte} (h : inRange (romF .months) mo = true) (old : Byte) :
    finsert (romF .months) old (fieldBits (romF .months) mo) = (old &&& 0xE0) ||| packed mo.toNat :=
  congrArg ((old &&& 0xE0) ||| ·) (fieldBits_of_bcd rfl h)

/-- Settles O52: MONTHS' mask leaves bits 7:5, and C is read before the write that would clear it. -/
theorem centuryIsKeptByBothWays : Obligations.CenturyIsKeptByBothWays := by
  refine ⟨fun b mo hquiet hlo hhi => ?_, fun b s mi h d w mo y hquiet hx => ?_⟩
  · have hin : inRange (romF .months) mo = true := (inRange_iff _ _).2 ⟨hlo, hhi⟩
    obtain ⟨b', hset, -, hwrote⟩ := rmw_of_exec (f := .months) hquiet (registers_one (by decide) b)
      (exec_fldPut_of_inRange (s := b.driven (.fldPut .months) [b.reg[7], mo]) hin)
    refine ⟨b', hset, (hwrote.reg 7).trans (finsert_months hin b.reg[7]), fun a ha => ?_⟩
    rw [hwrote.reg a, if_neg (by simp [romF]; omega)]
  · have hread := readField_c hquiet
    obtain ⟨b', hset, -, hwrote⟩ := setDatetimeWithCentury_of_legal (c := .put (fieldRaw (romF .c) b.reg[7])) hx
      (fieldRaw_c_le _) (b.answering (.fldGet .c) [b.reg[7]] ⟨.ok, lanesOf [fieldRaw (romF .c) b.reg[7]], 0x07, 1⟩)
    refine ⟨b', ?_, (hwrote.reg 7).trans ?_⟩
    · simp only [Bench.setDatetimeKeepingCentury, hread]
      exact hset
    · exact congrArg (packed mo.toNat ||| ·) (centuryBits_fieldRaw_c b.reg[7])

end Sys2Proof.Machine

/-! PROOFS. The alarm operations (spec/44_alarm.md R240 to R244): four values and four enables out of the registers
0x09 to 0x0C and into them, and the independence of the components, on the block and on the fixture. -/

namespace Sys2Proof.Machine

/-! ### Four lanes as an alarm -/

/-- IN0..IN3 are alarm values in range (44_alarm.md, lane table). -/
def Lanes.IsAlarm (x : Lanes) : Prop := AlarmInRange x.l0.toNat x.l1.toNat x.l2.toNat x.l3.toNat

/-- IN4..IN7 are enables, each 0 or 1 (R241). -/
def Lanes.HasEnables (x : Lanes) : Prop := x.l4.toNat ≤ 1 ∧ x.l5.toNat ≤ 1 ∧ x.l6.toNat ≤ 1 ∧ x.l7.toNat ≤ 1

/-- The value bits of the four alarm registers: three packed decimals and the weekday itself (R241). -/
def alarmValueBits (x : Lanes) : List Byte := [packed x.l0.toNat, packed x.l1.toNat, packed x.l2.toNat, x.l3]

/-- The AE bits of the four alarm registers (R241). -/
def alarmAeBits (x : Lanes) : List Byte := [aeBits x.l4.toNat, aeBits x.l5.toNat, aeBits x.l6.toNat, aeBits x.l7.toNat]

/-- The four fresh register bytes of an alarm (R241). -/
def packedAlarm (x : Lanes) : List Byte := orLanes (alarmValueBits x) (alarmAeBits x)

theorem lanesInRange_alarmLanes_iff (s : State) : LanesInRange (alarmLanes s) ↔ s.req.ins.IsAlarm := by
  simp [LanesInRange, inRange_iff, romF, Lanes.IsAlarm, AlarmInRange, and_assoc]

theorem holdLanes_alarmLanes_iff (st : State) (m h d w : Nat) :
    HoldLanes (alarmLanes st) [m, h, d, w] ↔ HoldsAlarm st.req.ins m h d w := by
  have hlanes : HoldLanes (alarmLanes st) [m, h, d, w] ↔
      (HoldsBcd (st.in0 &&& 0x7F) m ∧ m ≤ 59) ∧ (HoldsBcd (st.in1 &&& 0x3F) h ∧ h ≤ 23) ∧
      (HoldsBcd (st.in2 &&& 0x3F) d ∧ 1 ≤ d ∧ d ≤ 31) ∧ ((st.in3 &&& 0x07).toNat = w ∧ w ≤ 6) := by
    simp [HoldLanes, HoldsField, romF, eq_comm (a := w)]
  rw [hlanes]
  exact ⟨fun ⟨hm, hh, hd, hw⟩ => ⟨hm, hh, hd, hw⟩, fun ⟨hm, hh, hd, hw⟩ => ⟨hm, hh, hd, hw⟩⟩

theorem exists_holdLanes_alarmLanes_iff (st : State) :
    (∃ vs, HoldLanes (alarmLanes st) vs) ↔ ∃ m h d w, HoldsAlarm st.req.ins m h d w := by
  constructor
  · rintro ⟨vs, hvs⟩
    match vs, List.Forall₂.length_eq hvs with
    | [m, h, d, w], _ => exact ⟨m, h, d, w, (holdLanes_alarmLanes_iff ..).1 hvs⟩
  · rintro ⟨m, h, d, w, ha⟩
    exact ⟨_, (holdLanes_alarmLanes_iff ..).2 ha⟩

theorem fieldBits_weekdayAlarm (w : Byte) : fieldBits (romF .weekdayAlarm) w = w := BitVec.shiftLeft_zero _

theorem encodeLanes_alarmLanes {st : State} (h : st.req.ins.IsAlarm) :
    encodeLanes (alarmLanes st) = some (alarmValueBits st.req.ins) := by
  have hr := (lanesInRange_alarmLanes_iff st).2 h
  rw [encodeLanes_of_inRange hr]
  simp only [LanesInRange, List.forall_mem_cons] at hr
  obtain ⟨hm, hh, hd, -⟩ := hr
  simp only [alarmValueBits, List.map_cons, List.map_nil, fieldBits_of_bcd rfl hm, fieldBits_of_bcd rfl hh,
    fieldBits_of_bcd rfl hd, fieldBits_weekdayAlarm]

/-! ### The enables -/

theorem isFlag_alarmEnableField (p : AlarmPart) : isFlag (alarmEnableField p) = true := by cases p <;> rfl

/-- AE is bit 7, as C is, and active-low: a component is enabled when it is 0 (40_register_map.md R137 to R140). -/
theorem active_alarmEnableField (p : AlarmPart) (x : Byte) :
    active (romF (alarmEnableField p)) x = if 128 ≤ x.toNat then 0 else 1 := by
  have hraw : active (romF (alarmEnableField p)) x = fieldRaw (romF .c) x ^^^ 1 := by cases p <;> rfl
  rw [hraw, fieldRaw_c]
  split
  · rfl
  · rfl

/-- An enable's AE bit in register position: onbit is 0 and offbit 1 (R241, 42_field_ops.md R183). -/
theorem aeBit_eq_aeBits (p : AlarmPart) (e : Byte) :
    (if e = 1 then onbit (romF (alarmEnableField p)) else offbit (romF (alarmEnableField p))) <<< 7 =
      aeBits e.toNat := by
  have hon : onbit (romF (alarmEnableField p)) <<< 7 = 0x00 := by cases p <;> rfl
  have hoff : offbit (romF (alarmEnableField p)) <<< 7 = 0x80 := by cases p <;> rfl
  have hone : e = 1 ↔ e.toNat = 1 := BitVec.toNat_inj.symm
  rw [aeBits, ← if_congr hone rfl rfl]
  split
  · exact hon
  · exact hoff

theorem alarmEnableBits_alarmEnables (st : State) : alarmEnableBits (alarmEnables st) = alarmAeBits st.req.ins := by
  simp only [alarmEnableBits, alarmAeBits, List.map_cons, List.map_nil, ← aeBit_eq_aeBits .minute st.in4,
    ← aeBit_eq_aeBits .hour st.in5, ← aeBit_eq_aeBits .day st.in6, ← aeBit_eq_aeBits .weekday st.in7]
  rfl

/-- ALM_PACK's check of the enables (R241). -/
theorem any_alarmEnables_iff (st : State) :
    (alarmEnables st).any (fun e => decide (e.2.toNat > 1)) = true ↔ ¬ st.req.ins.HasEnables := by
  rw [← Bool.not_eq_false, not_iff_not]
  simp [Lanes.HasEnables]

/-! ### What the two operations answer -/

theorem exec_almUnpack_of_holdsAlarm {st : State} {m h d w : Nat} (ha : HoldsAlarm st.req.ins m h d w) :
    exec .almUnpack st = answered st ⟨.ok, ⟨toByte m, toByte h, toByte d, toByte w,
      active (romF .aeM) st.req.ins.l0, active (romF .aeH) st.req.ins.l1, active (romF .aeD) st.req.ins.l2,
      active (romF .aeW) st.req.ins.l3⟩, 0x09, 4⟩ := by
  simp only [exec, execAlmUnpack, decodeLanes_of_holdLanes ((holdLanes_alarmLanes_iff ..).2 ha)]
  rfl

theorem exec_almUnpack_of_not_holdsAlarm {st : State} (ha : ¬ ∃ m h d w, HoldsAlarm st.req.ins m h d w) :
    exec .almUnpack st = failed st .decodeAnomaly := by
  rw [← exists_holdLanes_alarmLanes_iff] at ha
  simp only [exec, execAlmUnpack, decodeLanes_of_not_holdLanes ha]
  rfl

theorem exec_almPack_of_legal {st : State} (hx : st.req.ins.IsAlarm) (he : st.req.ins.HasEnables) :
    exec .almPack st = answered st ⟨.ok, lanesOf (packedAlarm st.req.ins), 0x09, 4⟩ := by
  refine (if_neg (mt (any_alarmEnables_iff st).1 (not_not.2 he))).trans ?_
  simp only [encodeLanes_alarmLanes hx, alarmEnableBits_alarmEnables]
  rfl

theorem exec_almPack_of_not_legal {st : State} (h : ¬ (st.req.ins.IsAlarm ∧ st.req.ins.HasEnables)) :
    exec .almPack st = failed st .invalidArgument := by
  by_cases he : st.req.ins.HasEnables
  · have hx : ¬ LanesInRange (alarmLanes st) := fun hr => h ⟨(lanesInRange_alarmLanes_iff st).1 hr, he⟩
    refine (if_neg (mt (any_alarmEnables_iff st).1 (not_not.2 he))).trans ?_
    simp only [encodeLanes_of_not_inRange hx]
    rfl
  · exact if_pos ((any_alarmEnables_iff st).2 he)

/-- Settles O35: the two cases of the four masked bytes; each enable is the flag AE of its own byte. -/
theorem almUnpackResult : Obligations.AlmUnpackResult := by
  refine ⟨rfl, fun st m h d w ha => ?_, fun _ => exec_almUnpack_of_not_holdsAlarm,
    fun _ => step_failed_of_lowOf_ne_zero (i := .almUnpack) rfl⟩
  rw [← active_alarmEnableField .minute, ← active_alarmEnableField .hour, ← active_alarmEnableField .day,
    ← active_alarmEnableField .weekday]
  exact exec_almUnpack_of_holdsAlarm ha

/-- Settles O36: the two cases of the four values and the four enables. -/
theorem almPackResult : Obligations.AlmPackResult := by
  refine ⟨rfl, fun _ => exec_almPack_of_legal, fun st h => exec_almPack_of_not_legal ?_,
    fun _ => step_failed_of_lowOf_ne_zero (i := .almPack) rfl⟩
  rintro ⟨hx, he0, he1, he2, he3⟩
  obtain h | h | h | h | h := h
  · exact h hx
  all_goals omega

/-! ### Fresh bytes read back -/

/-- A mask without bit 7 does not see the AE bit. -/
theorem or_aeBits_and {m : Byte} (hm : 0x80 &&& m = 0) (x : Byte) (e : Nat) : (x ||| aeBits e) &&& m = x &&& m := by
  have hae : aeBits e &&& m = 0 := by
    unfold aeBits
    split
    · exact BitVec.zero_and
    · exact hm
  rw [BitVec.and_or_distrib_right, hae]
  exact BitVec.or_zero

theorem and_topBit_of_lt {x : Byte} (h : x.toNat < 128) : x &&& 0x80 = 0 := by
  have hlow : x &&& 0x7F = x := and_eq_self_of_le_lowBits (w := 7) rfl (Nat.le_of_lt_succ h)
  rw [← hlow, BitVec.and_assoc]
  exact BitVec.and_zero

/-- Beside a value that lies below bit 7, the AE bit reads back as its enable. -/
theorem active_or_aeBits (p : AlarmPart) {x e : Byte} (hx : x.toNat < 128) (he : e.toNat ≤ 1) :
    active (romF (alarmEnableField p)) (x ||| aeBits e.toNat) = e := by
  have hmask : (romF (alarmEnableField p)).mask = 0x80 := by cases p <;> rfl
  have hbit : (x ||| aeBits e.toNat) &&& 0x80 = aeBits e.toNat &&& 0x80 := by
    rw [BitVec.and_or_distrib_right, and_topBit_of_lt hx]
    exact BitVec.zero_or
  rw [active_congr (hmask ▸ hbit), active_alarmEnableField]
  obtain rfl | rfl : e = 0 ∨ e = 1 := by bv_omega
  · rfl
  · rfl

/-- The four fresh bytes hold the alarm values they were packed from, whatever their AE bits. -/
theorem holdsAlarm_packedAlarm {x : Lanes} (hx : x.IsAlarm) :
    HoldsAlarm (lanesOf (packedAlarm x)) x.l0.toNat x.l1.toNat x.l2.toNat x.l3.toNat := by
  obtain ⟨hm, hh, hd₁, hd, hw⟩ := hx
  have hminute : (packed x.l0.toNat ||| aeBits x.l4.toNat) &&& 0x7F = packed x.l0.toNat &&& 0x7F :=
    or_aeBits_and (by decide) _ _
  have hhour : (packed x.l1.toNat ||| aeBits x.l5.toNat) &&& 0x3F = packed x.l1.toNat &&& 0x3F :=
    or_aeBits_and (by decide) _ _
  have hday : (packed x.l2.toNat ||| aeBits x.l6.toNat) &&& 0x3F = packed x.l2.toNat &&& 0x3F :=
    or_aeBits_and (by decide) _ _
  have hweekday : (x.l3 ||| aeBits x.l7.toNat) &&& 0x07 = x.l3 :=
    (or_aeBits_and (by decide) _ _).trans (and_eq_self_of_le_lowBits (w := 3) rfl (hw.trans (by decide)))
  exact ⟨⟨hminute ▸ holdsBcd_packed_and (w := 7) rfl (by omega) (by omega), hm⟩,
    ⟨hhour ▸ holdsBcd_packed_and (w := 6) rfl (by omega) (by omega), hh⟩,
    ⟨hday ▸ holdsBcd_packed_and (w := 6) rfl (by omega) (by omega), hd₁, hd⟩,
    ⟨congrArg BitVec.toNat hweekday, hw⟩⟩

theorem exec_almUnpack_packedAlarm {st : State} {x : Lanes} (hx : x.IsAlarm) (he : x.HasEnables)
    (hins : st.req.ins = lanesOf (packedAlarm x)) : exec .almUnpack st = answered st ⟨.ok, x, 0x09, 4⟩ := by
  have hholds := hins ▸ holdsAlarm_packedAlarm hx
  obtain ⟨hm, hh, -, hd, hw⟩ := hx
  obtain ⟨he0, he1, he2, he3⟩ := he
  have packed_lt {n : Nat} (hn : n ≤ 59) : (packed n).toNat < 128 := by
    rw [toNat_packed (by omega)]
    omega
  have hminute : active (romF .aeM) st.req.ins.l0 = x.l4 :=
    hins ▸ active_or_aeBits .minute (packed_lt hm) he0
  have hhour : active (romF .aeH) st.req.ins.l1 = x.l5 :=
    hins ▸ active_or_aeBits .hour (packed_lt (by omega)) he1
  have hday : active (romF .aeD) st.req.ins.l2 = x.l6 :=
    hins ▸ active_or_aeBits .day (packed_lt (by omega)) he2
  have hweekday : active (romF .aeW) st.req.ins.l3 = x.l7 :=
    hins ▸ active_or_aeBits .weekday (by omega) he3
  rw [exec_almUnpack_of_holdsAlarm hholds, hminute, hhour, hday, hweekday]
  simp only [toByte_toNat]

/-- Settles O37: fresh bytes hold the values and the enables they were packed from. -/
theorem alarmRoundTrip : Obligations.AlarmRoundTrip := by
  intro st m h d w e0 e1 e2 e3 hx he0 he1 he2 he3
  have hx : Lanes.IsAlarm ⟨m, h, d, w, e0, e1, e2, e3⟩ := hx
  have he : Lanes.HasEnables ⟨m, h, d, w, e0, e1, e2, e3⟩ := ⟨he0, he1, he2, he3⟩
  exact ⟨_, _, exec_almPack_of_legal hx he, exec_almUnpack_packedAlarm hx he rfl, rfl⟩

/-! ### A component's value and its enable (R242) -/

/-- A component's value bits lie below its AE bit. -/
theorem alarmValueField_mask (p : AlarmPart) : ~~~(romF (alarmValueField p)).mask &&& 0x80 = 0x80 := by
  cases p <;> rfl

theorem finsert_alarmEnable_on (p : AlarmPart) (old : Byte) :
    finsert (romF (alarmEnableField p)) old
      (onbit (romF (alarmEnableField p)) <<< (romF (alarmEnableField p)).shift) = old &&& 0x7F := by
  have hon : onbit (romF (alarmEnableField p)) <<< (romF (alarmEnableField p)).shift = 0 := by cases p <;> rfl
  have hmask : ~~~(romF (alarmEnableField p)).mask = 0x7F := by cases p <;> rfl
  rw [finsert, hon, hmask]
  exact BitVec.or_zero

theorem and_not_or_self (x m : Byte) : (x &&& ~~~m) ||| m = x ||| m := by
  ext i hi
  simp only [BitVec.getElem_or, BitVec.getElem_and, BitVec.getElem_not, Bool.or_and_distrib_right, Bool.not_or_self,
    Bool.and_true]

theorem finsert_alarmEnable_off (p : AlarmPart) (old : Byte) :
    finsert (romF (alarmEnableField p)) old
      (offbit (romF (alarmEnableField p)) <<< (romF (alarmEnableField p)).shift) = old ||| 0x80 := by
  have hoff : offbit (romF (alarmEnableField p)) <<< (romF (alarmEnableField p)).shift = 0x80 := by cases p <;> rfl
  have hmask : (romF (alarmEnableField p)).mask = 0x80 := by cases p <;> rfl
  rw [finsert, hoff, hmask, and_not_or_self]

/-- Settles O38: a value's mask does not hold bit 7, and AE's mask is bit 7. -/
theorem alarmValueAndEnableAreIndependent : Obligations.AlarmValueAndEnableAreIndependent := by
  intro p st t hok
  refine ⟨fun h => ?_, fun h => ?_, fun h => ?_⟩
  · exact and_eq_and_of_submask (alarmValueField_mask p)
      ((exec_fldPut_insertsField (alarmValueField p) st).keeps_outside h hok)
  · rw [exec_flgOn_of_isFlag (isFlag_alarmEnableField p)] at h
    cases h
    exact finsert_alarmEnable_on p st.in0
  · rw [exec_flgOff_of_isFlag (isFlag_alarmEnableField p)] at h
    cases h
    exact finsert_alarmEnable_off p st.in0

/-! ### Read-modify-write of one component on the fixture (R243, log entry 6) -/

/-- An error of the request is no write (R338): the registers stay. -/
theorem rmw_of_raiseCause {i : Instr} {f : Field} {more : List Byte} {b : Bench} {e : Cause}
    (hquiet : b.schedule = [])
    (h : exec i (b.driven i (b.registers (romF f).reg.toNat 1 ++ more)) =
      raiseCause (b.driven i (b.registers (romF f).reg.toNat 1 ++ more)) e) :
    ∃ b', b.rmw i f more = some b' ∧ b'.reg = b.reg := by
  have hread := readThenIssue_of_exec hquiet (romF_reg_lt f) rfl h
  simp only [Bench.rmw, hread]
  exact ⟨_, if_neg (causeStatus_ne_ok e), rfl⟩

/-- Read-modify-write by an operation that inserts into field f changes no register but the field's own. -/
theorem rmw_keeps_other_registers {i : Instr} {f : Field} (more : List Byte) {b : Bench} (hquiet : b.schedule = [])
    (hi : ∀ s, InsertsField f s (exec i s)) :
    ∃ b', b.rmw i f more = some b' ∧ ∀ a : Fin 16, a.val ≠ (romF f).reg.toNat → b'.reg[a] = b.reg[a] := by
  have hold := registers_one (romF_reg_lt f) b
  obtain ⟨bits, -, hexec⟩ | ⟨e, hexec⟩ := hi (b.driven i (b.registers (romF f).reg.toNat 1 ++ more))
  · rw [hold] at hexec
    obtain ⟨b', hrmw, -, hwrote⟩ := rmw_of_exec hquiet hold hexec
    refine ⟨b', hrmw, fun a ha => ?_⟩
    rw [hwrote.reg a, if_neg (by simp; omega)]
  · obtain ⟨b', hrmw, hreg⟩ := rmw_of_raiseCause hquiet hexec
    exact ⟨b', hrmw, fun a _ => by rw [hreg]⟩

theorem setField_keeps_other_registers (f : Field) (v : Byte) {b : Bench} (hquiet : b.schedule = []) :
    ∃ b', b.setField f v = some b' ∧ ∀ a : Fin 16, a.val ≠ (romF f).reg.toNat → b'.reg[a] = b.reg[a] :=
  rmw_keeps_other_registers [v] hquiet (exec_fldPut_insertsField f)

theorem setFlag_keeps_other_registers (f : Field) (on : Bool) {b : Bench} (hquiet : b.schedule = []) :
    ∃ b', b.setFlag f on = some b' ∧ ∀ a : Fin 16, a.val ≠ (romF f).reg.toNat → b'.reg[a] = b.reg[a] := by
  cases on with
  | true => exact rmw_keeps_other_registers [] hquiet (exec_flgOn_insertsField f)
  | false => exact rmw_keeps_other_registers [] hquiet (exec_flgOff_insertsField f)

/-- A component's value and its enable share one register (44_alarm.md, lane table). -/
theorem alarmFields_share_register (p : AlarmPart) :
    (romF (alarmValueField p)).reg = (romF (alarmEnableField p)).reg := by cases p <;> rfl

/-- Settles O49: both operations insert into a field of the component's register. -/
theorem alarmComponentsAreIndependent : Obligations.AlarmComponentsAreIndependent := by
  intro p b v on hquiet
  have hreg := alarmFields_share_register p
  obtain ⟨b₁, hvalue, hkeeps₁⟩ := setField_keeps_other_registers (alarmValueField p) v hquiet
  obtain ⟨b₂, henable, hkeeps₂⟩ := setFlag_keeps_other_registers (alarmEnableField p) on hquiet
  exact ⟨b₁, b₂, hvalue, henable, hreg, fun a ha => ⟨hkeeps₁ a ha, hkeeps₂ a (hreg ▸ ha)⟩⟩

end Sys2Proof.Machine

/-! PROOFS. Errors (spec/60_exceptions.md): which words answer IllegalRequest (R302), what an error leaves behind (R301),
and which operation raises which class (R300). -/

namespace Sys2Proof

open Machine

/-! ### The causes (a) to (e) of R302 are what the decoder rejects -/

theorem toNat_cmdRsv (w : Word) : (cmdRsv w).toNat = w.toNat / 32 % 128 := by
  simp [cmdRsv, BitVec.extractLsb'_toNat, Nat.shiftRight_eq_div_pow]

theorem toNat_cmdOpc (w : Word) : (cmdOpc w).toNat = opcOf w := by
  have hw : w.toNat < 65536 := w.isLt
  simp only [cmdOpc, opcOf, BitVec.extractLsb'_toNat, Nat.shiftRight_eq_div_pow]
  omega

theorem toNat_cmdFid (w : Word) : (cmdFid w).toNat = w.toNat % 32 := by
  simp [cmdFid, BitVec.extractLsb'_toNat]

theorem ne_zero_of_takeNoField_error {fid : BitVec 5} {i : Instr} {e : Reject} (h : takeNoField fid i = .error e) :
    fid ≠ 0 := by
  rintro rfl
  cases h

theorem thirty_le_of_takeField_error {fid : BitVec 5} {mk : Field → Instr} {e : Reject}
    (h : takeField fid mk = .error e) : 30 ≤ fid.toNat := by
  unfold takeField at h
  split at h
  · cases h
  · next hnone => exact (fieldOfFid_none_iff fid).1 hnone

theorem thirty_le_or_le_thirteen_of_takeFlag_error {fid : BitVec 5} {mk : Field → Instr} {e : Reject}
    (h : takeFlag fid mk = .error e) : 30 ≤ fid.toNat ∨ fid.toNat ≤ 13 := by
  unfold takeFlag at h
  split at h
  · next f hf =>
    split at h
    · cases h
    · next hflag =>
      rw [isFlag_iff, fid_of_fieldOfFid hf] at hflag
      exact .inr (by omega)
  · next hnone => exact .inl ((fieldOfFid_none_iff fid).1 hnone)

/-- Cause (e): the arm of an operation that takes no field rejects a FID other than 0. -/
theorem illegalWord_of_takeNoField_error {w : Word} {i : Instr} {e : Reject}
    (h : takeNoField (cmdFid w) i = .error e) {o : Nat} (hopc : (cmdOpc w).toNat = o)
    (ho : o ∉ [2, 3, 4, 5, 6, 12]) : IllegalWord w := by
  have hfid := BitVec.toNat_ne_iff_ne.2 (ne_zero_of_takeNoField_error h)
  rw [toNat_cmdOpc] at hopc
  rw [toNat_cmdFid] at hfid
  exact .inr (.inr (.inr (.inr ⟨hopc ▸ ho, hfid⟩)))

/-- Cause (c): the arm of an operation that takes any field rejects the reserved FIDs. -/
theorem illegalWord_of_takeField_error {w : Word} {mk : Field → Instr} {e : Reject}
    (h : takeField (cmdFid w) mk = .error e) {o : Nat} (hopc : (cmdOpc w).toNat = o)
    (ho : o ∈ [2, 3, 4, 5, 6, 12]) : IllegalWord w := by
  have hfid := thirty_le_of_takeField_error h
  rw [toNat_cmdOpc] at hopc
  rw [toNat_cmdFid] at hfid
  exact .inr (.inr (.inl ⟨hopc ▸ ho, hfid⟩))

/-- Causes (c) and (d): the arm of a FLAG-only operation rejects the reserved FIDs and those of the other fields. -/
theorem illegalWord_of_takeFlag_error {w : Word} {mk : Field → Instr} {e : Reject}
    (h : takeFlag (cmdFid w) mk = .error e) {o : Nat} (hopc : (cmdOpc w).toNat = o)
    (ho : o ∈ [4, 5, 6]) : IllegalWord w := by
  have hfid := thirty_le_or_le_thirteen_of_takeFlag_error h
  rw [toNat_cmdOpc] at hopc
  rw [toNat_cmdFid] at hfid
  subst hopc
  obtain hfid | hfid := hfid
  · have htakes : opcOf w ∈ [2, 3, 4, 5, 6, 12] := by
      simp only [List.mem_cons, List.not_mem_nil, or_false] at ho ⊢
      omega
    exact .inr (.inr (.inl ⟨htakes, hfid⟩))
  · exact .inr (.inr (.inr (.inl ⟨ho, hfid⟩)))

/-- Arm by arm of the decoder: each rejection is one of the causes. -/
theorem illegalWord_of_decode_error {w : Word} {e : Reject} (h : decode w = .error e) : IllegalWord w := by
  unfold decode at h
  split at h
  · next hrsv =>
    have hrsv := BitVec.toNat_ne_iff_ne.2 hrsv
    rw [toNat_cmdRsv] at hrsv
    exact .inl hrsv
  · split at h
    · next hopc => exact illegalWord_of_takeNoField_error h hopc (by decide)
    · next hopc => exact illegalWord_of_takeNoField_error h hopc (by decide)
    · next hopc => exact illegalWord_of_takeField_error h hopc (by decide)
    · next hopc => exact illegalWord_of_takeField_error h hopc (by decide)
    · next hopc => exact illegalWord_of_takeFlag_error h hopc (by decide)
    · next hopc => exact illegalWord_of_takeFlag_error h hopc (by decide)
    · next hopc => exact illegalWord_of_takeFlag_error h hopc (by decide)
    · next hopc => exact illegalWord_of_takeNoField_error h hopc (by decide)
    · next hopc => exact illegalWord_of_takeNoField_error h hopc (by decide)
    · next hopc => exact illegalWord_of_takeNoField_error h hopc (by decide)
    · next hopc => exact illegalWord_of_takeNoField_error h hopc (by decide)
    · next hopc => exact illegalWord_of_takeNoField_error h hopc (by decide)
    · next hopc => exact illegalWord_of_takeField_error h hopc (by decide)
    · next hopc => exact illegalWord_of_takeNoField_error h hopc (by decide)
    · next hopc => exact illegalWord_of_takeNoField_error h hopc (by decide)
    · have hlt := (cmdOpc w).isLt
      have hopc : (cmdOpc w).toNat = 15 := by
        simp only [imp_false] at *
        omega
      exact .inr (.inl (toNat_cmdOpc w ▸ hopc))

theorem opc_ne_reserved (i : Instr) : i.opc ≠ 0xF := by cases i <;> simp [Instr.opc]

/-- The operations that take no field are those whose OPC is none of the six field-taking ones (R72). -/
theorem field?_eq_none_of_opc {i : Instr} (h : i.opc.toNat ∉ [2, 3, 4, 5, 6, 12]) : i.field? = none := by
  revert h
  cases i <;> simp [Instr.opc, Instr.field?]

/-- The word of a well-formed operation has none of the causes. -/
theorem not_illegalWord_encode {i : Instr} (hwf : i.wellFormed = true) : ¬ IllegalWord (encode i) := by
  have hnum := toNat_encode i
  have hfid := fidBits_lt i
  have hmod : (encode i).toNat % 32 = i.fidBits.toNat := by omega
  rw [IllegalWord, opcOf_encode, hmod]
  rintro (hrsv | hopc | ⟨-, hreserved⟩ | ⟨hopc, hlow⟩ | ⟨hopc, hnonzero⟩)
  · omega
  · exact opc_ne_reserved i (BitVec.eq_of_toNat_eq hopc)
  · omega
  · have := fourteen_le_fidBits hwf hopc
    omega
  · exact hnonzero (by rw [fidBits_of_field?_eq_none (field?_eq_none_of_opc hopc)]; rfl)

theorem not_illegalWord_of_decode_ok {w : Word} {i : Instr} (h : decode w = .ok i) : ¬ IllegalWord w := by
  obtain ⟨rfl, hwf⟩ := encode_of_decode_ok h
  exact not_illegalWord_encode hwf

end Sys2Proof

namespace Sys2Proof.Machine

/-! ### What an operation can raise -/

/-- The class an operation raises on its data: the last column of R300's table, read by operation. `none` for the
operations that never fail on data. -/
def dataCause : Instr → Option Cause
  | .bcdDec => some .decodeAnomaly
  | .bcdEnc => some .invalidArgument
  | .fldGet _ => some .decodeAnomaly
  | .fldPut _ => some .invalidArgument
  | .flgOn _ => none
  | .flgOff _ => none
  | .flgTest _ => none
  | .dtUnpack => some .decodeAnomaly
  | .dtPack => some .invalidArgument
  | .tmPack => some .invalidArgument
  | .almUnpack => some .decodeAnomaly
  | .almPack => some .invalidArgument
  | .mapField _ => none
  | .mapReg => some .invalidArgument
  | .mapDev => none

/-- The outcome is a next state whose STATUS is OK, or the raise of the given class, if there is one. -/
def OkOrRaises (cause : Option Cause) (s : State) (o : Host.Outcome State Fault Refusal) : Prop :=
  (∃ bytes raddr rlen, o = finishOk s bytes raddr rlen) ∨ ∃ e, cause = some e ∧ o = raiseCause s e

/-- A well-formed operation answers OK or raises its own class. -/
theorem exec_okOrRaises {i : Instr} (hwf : i.wellFormed = true) (s : State) :
    OkOrRaises (dataCause i) s (exec i s) := by
  have ok (cause : Option Cause) (bytes : List Byte) (raddr : Byte) (rlen : BitVec 4) :
      OkOrRaises cause s (finishOk s bytes raddr rlen) := .inl ⟨bytes, raddr, rlen, rfl⟩
  have raises (e : Cause) : OkOrRaises (some e) s (raiseCause s e) := .inr ⟨e, rfl, rfl⟩
  cases i
  case flgOn f => exact exec_flgOn_of_isFlag hwf s ▸ ok ..
  case flgOff f => exact exec_flgOff_of_isFlag hwf s ▸ ok ..
  case flgTest f => exact exec_flgTest_of_isFlag hwf s ▸ ok ..
  case mapField | mapDev => exact ok ..
  case bcdEnc =>
    simp only [exec, execBcdEnc]
    split
    · exact raises _
    · split
      · exact raises _
      · exact ok ..
  case almPack =>
    simp only [exec, execAlmPack]
    split
    · exact raises _
    · split
      · exact ok ..
      · exact raises _
  case bcdDec | fldGet | fldPut | dtUnpack | dtPack | tmPack | almUnpack | mapReg =>
    simp only [exec, execBcdDec, execFldGet, execFldPut, execDtUnpack, execDtPack, execTmPack, execAlmUnpack,
      execMapReg]
    split
    · exact ok ..
    · exact raises _

theorem status_of_exec {i : Instr} (hwf : i.wellFormed = true) {s t : State} (h : exec i s = .next t) :
    t.resp.status = .ok ∨ ∃ e, dataCause i = some e ∧ t.resp.status = causeStatus e := by
  obtain ⟨bytes, raddr, rlen, hok⟩ | ⟨e, he, hraise⟩ := exec_okOrRaises hwf s
  · obtain rfl : s.respond (okResponse bytes raddr rlen) = t := Host.Outcome.next.inj (hok.symm.trans h)
    exact .inl rfl
  · obtain rfl : s.respond (errorResponse e) = t := Host.Outcome.next.inj (hraise.symm.trans h)
    exact .inr ⟨e, he, rfl⟩

theorem dataCause_ne_illegalRequest (i : Instr) : dataCause i ≠ some .illegalRequest := by
  cases i <;> simp [dataCause]

theorem causeStatus_injective : Function.Injective causeStatus := by
  intro e e' h
  cases e <;> cases e' <;> simp [causeStatus] at h ⊢

/-- IllegalRequest is the decoder's to raise: no well-formed operation does. -/
theorem status_ne_illegalRequest {i : Instr} (hwf : i.wellFormed = true) {s t : State} (h : exec i s = .next t) :
    t.resp.status ≠ .illegalRequest := by
  obtain hok | ⟨e, he, hst⟩ := status_of_exec hwf h
  · simp [hok]
  · rw [hst]
    intro hill
    obtain rfl : e = .illegalRequest := causeStatus_injective hill
    exact dataCause_ne_illegalRequest i he

/-- An operation that answers with an error of its data raises the class that is its own. -/
theorem dataCause_of_status {i : Instr} {s t : State} {e : Cause} (h : exec i s = .next t)
    (hst : t.resp.status = causeStatus e) (he : e ≠ .illegalRequest) : dataCause i = some e := by
  cases hwf : i.wellFormed with
  | true =>
    obtain hok | ⟨e', he', hst'⟩ := status_of_exec hwf h
    · exact absurd (hst.symm.trans hok) (causeStatus_ne_ok e)
    · exact causeStatus_injective (hst.symm.trans hst') ▸ he'
  | false =>
    obtain rfl : s.respond (errorResponse .illegalRequest) = t :=
      Host.Outcome.next.inj ((exec_of_not_wellFormed hwf s).symm.trans h)
    exact absurd (causeStatus_injective hst.symm) he

/-- Settles O4: the decoder rejects exactly the words with a cause, and an operation it accepts raises its own class
only. -/
theorem illegalWordsAnswerIllegalRequest : Obligations.IllegalWordsAnswerIllegalRequest := by
  intro s
  cases hd : decode s.req.cmd with
  | error e => exact ⟨fun _ => step_of_decode_error hd, fun h => absurd (illegalWord_of_decode_error hd) h⟩
  | ok i =>
    obtain ⟨r, hr⟩ := exec_next i s
    exact ⟨fun h => absurd h (not_illegalWord_of_decode_ok hd), fun _ =>
      ⟨i, _, rfl, step_of_decode_ok hd, hr, status_ne_illegalRequest (encode_of_decode_ok hd).2 hr⟩⟩

/-! ### What an error leaves behind -/

/-- A step depends on the request alone, so what an earlier step left on the response ports is replaced unseen. -/
theorem step_present_respond (s : State) (r : Response) (q : Request) :
    step ((s.respond r).present q) = step (s.present q) := by
  rw [step_answered, step_answered]
  rfl

theorem wr_nil (a : Nat) (b : Bench) : b.wr a [] = some b := rfl

/-- Settles O15: an error's coherent response is its code alone, and no step reads a response. -/
theorem errorsCarryNothing : Obligations.ErrorsCarryNothing := by
  intro s t h hst
  obtain ⟨r, hr, hs⟩ := step_answersCoherently s
  obtain rfl : s.respond r = t := Host.Outcome.next.inj (hs.symm.trans h)
  obtain ⟨hout, hraddr, hrlen⟩ := hr.error_empty hst
  refine ⟨?_, fun q u hu => (step_present_respond s r q).trans hu, fun b => ?_⟩
  · rw [hs, failed, ← hout, ← hraddr, ← hrlen]
    rfl
  · rw [respond_resp, hrlen]
    exact wr_nil _ b

/-! ### Who raises which class (R300) -/

/-- A state with the byte x on every IN port. -/
def withEveryIn (x : Byte) : State := State.reset.withIns (List.replicate 8 x)

/-- 1 is a legal value of every field, and a legal register byte, decimal, enable and register address. -/
theorem exec_ones_ok {i : Instr} (hwf : i.wellFormed = true) :
    ∃ t, exec i (withEveryIn 1) = .next t ∧ t.resp.status = .ok := by
  cases i
  case flgOn f => exact ⟨_, exec_flgOn_of_isFlag hwf _, rfl⟩
  case flgOff f => exact ⟨_, exec_flgOff_of_isFlag hwf _, rfl⟩
  case flgTest f => exact ⟨_, exec_flgTest_of_isFlag hwf _, rfl⟩
  case fldGet f | fldPut f => cases f <;> exact ⟨_, rfl, rfl⟩
  all_goals exact ⟨_, rfl, rfl⟩

/-- A well-formed operation of every OPC but the reserved 0xF. -/
def operationsByOpc : List Instr :=
  [.bcdDec, .bcdEnc, .fldGet .seconds, .fldPut .seconds, .flgOn .vl, .flgOff .vl, .flgTest .vl, .dtUnpack, .dtPack,
   .tmPack, .almUnpack, .almPack, .mapField .seconds, .mapReg, .mapDev]

theorem exists_operation_of_opc {o : BitVec 4} (h : o ≠ 0xF) :
    ∃ i ∈ operationsByOpc, i.opc = o ∧ i.wellFormed = true := by
  revert o
  decide

theorem opc_of_dataCause_invalidArgument {i : Instr} (h : dataCause i = some .invalidArgument) :
    i.opc ∈ ([0x1, 0x3, 0x8, 0x9, 0xB, 0xD] : List (BitVec 4)) := by
  cases i <;> simp [dataCause, Instr.opc] at h ⊢

theorem opc_of_dataCause_decodeAnomaly {i : Instr} (h : dataCause i = some .decodeAnomaly) :
    i.opc ∈ ([0x0, 0x2, 0x7, 0xA] : List (BitVec 4)) := by
  cases i <;> simp [dataCause, Instr.opc] at h ⊢

/-- R300, the row of ILLEGAL_REQUEST: whatever OPC is, a word with RSV not 0 names no operation (R302 (a)). -/
theorem exists_illegalRequest (o : BitVec 4) :
    ∃ s t, opcOf s.req.cmd = o.toNat ∧ step s = .next t ∧ t.resp.status = .illegalRequest := by
  have ho : o.toNat < 16 := o.isLt
  have hw : (BitVec.ofNat 16 (4096 * o.toNat + 32)).toNat = 4096 * o.toNat + 32 :=
    Nat.mod_eq_of_lt (by omega)
  have hopc : opcOf (BitVec.ofNat 16 (4096 * o.toNat + 32)) = o.toNat := by
    rw [opcOf, hw]
    omega
  have hlow : 30 ≤ lowOf (BitVec.ofNat 16 (4096 * o.toNat + 32)) := by
    rw [lowOf, hw]
    omega
  exact ⟨State.reset.driveCmd _, _, hopc, step_failed_of_thirty_le_lowOf hlow, rfl⟩

/-- R300, the row of OK. -/
theorem exists_ok_iff (o : BitVec 4) :
    (∃ i s t, Instr.opc i = o ∧ Instr.wellFormed i = true ∧ exec i s = .next t ∧ t.resp.status = .ok) ↔ o ≠ 0xF := by
  constructor
  · rintro ⟨i, s, t, rfl, -⟩
    exact opc_ne_reserved i
  · intro h
    obtain ⟨i, -, hopc, hwf⟩ := exists_operation_of_opc h
    obtain ⟨t, ht, hok⟩ := exec_ones_ok hwf
    exact ⟨i, _, t, hopc, hwf, ht, hok⟩

/-- R300, the row of INVALID_ARGUMENT: 0xFF is too big for every value and register address. -/
theorem exists_invalidArgument_iff (o : BitVec 4) :
    (∃ i s t, Instr.opc i = o ∧ exec i s = .next t ∧ t.resp.status = .invalidArgument) ↔
      o ∈ ([0x1, 0x3, 0x8, 0x9, 0xB, 0xD] : List (BitVec 4)) := by
  constructor
  · rintro ⟨i, s, t, rfl, ht, hst⟩
    exact opc_of_dataCause_invalidArgument (dataCause_of_status ht hst (by decide))
  · intro h
    simp only [List.mem_cons, List.not_mem_nil, or_false] at h
    obtain rfl | rfl | rfl | rfl | rfl | rfl := h
    · exact ⟨.bcdEnc, withEveryIn 0xFF, _, rfl, rfl, rfl⟩
    · exact ⟨.fldPut .seconds, withEveryIn 0xFF, _, rfl, rfl, rfl⟩
    · exact ⟨.dtPack, withEveryIn 0xFF, _, rfl, rfl, rfl⟩
    · exact ⟨.tmPack, withEveryIn 0xFF, _, rfl, rfl, rfl⟩
    · exact ⟨.almPack, withEveryIn 0xFF, _, rfl, rfl, rfl⟩
    · exact ⟨.mapReg, withEveryIn 0xFF, _, rfl, rfl, rfl⟩

/-- R300, the row of DECODE_ANOMALY: 0xFF holds no decimal. -/
theorem exists_decodeAnomaly_iff (o : BitVec 4) :
    (∃ i s t, Instr.opc i = o ∧ exec i s = .next t ∧ t.resp.status = .decodeAnomaly) ↔
      o ∈ ([0x0, 0x2, 0x7, 0xA] : List (BitVec 4)) := by
  constructor
  · rintro ⟨i, s, t, rfl, ht, hst⟩
    exact opc_of_dataCause_decodeAnomaly (dataCause_of_status ht hst (by decide))
  · intro h
    simp only [List.mem_cons, List.not_mem_nil, or_false] at h
    obtain rfl | rfl | rfl | rfl := h
    · exact ⟨.bcdDec, withEveryIn 0xFF, _, rfl, rfl, rfl⟩
    · exact ⟨.fldGet .seconds, withEveryIn 0xFF, _, rfl, rfl, rfl⟩
    · exact ⟨.dtUnpack, withEveryIn 0xFF, _, rfl, rfl, rfl⟩
    · exact ⟨.almUnpack, withEveryIn 0xFF, _, rfl, rfl, rfl⟩

/-- Settles O16, row by row of the table. -/
theorem statusCodesAndWhoRaisesThem : Obligations.StatusCodesAndWhoRaisesThem :=
  ⟨⟨rfl, rfl, rfl, rfl⟩, exists_ok_iff, exists_invalidArgument_iff, exists_decodeAnomaly_iff, exists_illegalRequest⟩

end Sys2Proof.Machine

/-! PROOFS. Reset and the host's hazards (spec/70_reset_and_hazards.md): the response ports from reset on (R331), init
(R333), the torn read of get_datetime (R334), and write-back on OK only (R338; the fixture is log entry 6). -/

namespace Sys2Proof.Machine

/-! ### The response invariant (R331, log entry 2) -/

/-- Settles O9: at reset the response ports hold OUT_RESET, whatever its value. -/
theorem resetMeetsRespInv : Obligations.ResetMeetsRespInv := .inl reset_resp

/-- Settles O10: whatever the response ports held before, a step's answer is coherent. -/
theorem stepKeepsRespInv : Obligations.StepKeepsRespInv := by
  intro s t _ h
  obtain ⟨-, hcoherent⟩ := everyAnswerIsCoherent s t h
  exact .inr hcoherent

/-! ### Write-back (R338) -/

theorem codec_coherent (q : Request) : (codec q).Coherent := by
  obtain ⟨-, hcoherent⟩ := everyAnswerIsCoherent ⟨q, outReset⟩ _ (step_answered _)
  exact hcoherent

/-- The bench after the block has answered q: the codec's response stands on the response ports, and nothing else of
the fixture has changed (R24). -/
def Bench.afterRequest (q : Request) (b : Bench) : Bench :=
  { b with block := (b.block.present q).respond (codec q) }

theorem request_eq_afterRequest (q : Request) (b : Bench) : b.request q = some (b.afterRequest q) := by
  obtain ⟨t, hstep, hrequest⟩ := request_spec q b
  obtain rfl : t = (b.block.present q).respond (codec q) := eq_respond_of_step hstep
  exact hrequest

theorem toList_take_length (l : Lanes) {n : Nat} (h : n ≤ 7) : (l.toList.take n).length = n :=
  List.length_take_of_le (h.trans (show 7 ≤ 8 by decide))

theorem Bench.Wrote.reg_take {a n : Nat} {l : Lanes} {b b' : Bench} (h : b.Wrote a (l.toList.take n) b') (hn : n ≤ 7)
    (k : Fin 16) : b'.reg[k] = if a ≤ k.val ∧ k.val < a + n then l.toList.getD (k.val - a) 0 else b.reg[k] := by
  rw [h.reg k, toList_take_length l hn]
  split
  · next hk => simp [List.getD, show k.val - a < n by omega]
  · rfl

theorem commit_of_not_ok {b : Bench} (h : b.block.resp.status ≠ .ok) : b.commit = some b := if_neg h

/-- The registers a coherent OK answer names exist, so its write-back has a result. -/
theorem commit_of_coherent_ok {b : Bench} (hr : b.block.resp.Coherent) (hok : b.block.resp.status = .ok) :
    ∃ b', b.commit = some b' ∧ b'.block = b.block ∧
      b.Wrote b.block.resp.raddr.toNat (b.block.resp.out.toList.take b.block.resp.rlen.toNat) b' :=
  commit_of_ok hok rfl ((toList_take_length _ hr.rlen_le).symm ▸ hr.registers_exist)

/-- A coherent error names no register, so writing RLEN bytes without a look at STATUS is no write (R301). -/
theorem wr_of_coherent_error {b : Bench} (hr : b.block.resp.Coherent) (herr : b.block.resp.status ≠ .ok) :
    b.wr b.block.resp.raddr.toNat (b.block.resp.out.toList.take b.block.resp.rlen.toNat) = some b := by
  obtain ⟨-, -, hrlen⟩ := hr.error_empty herr
  rw [hrlen]
  exact wr_nil _ b

/-- Settles O44: the answer to a request is coherent, and the write-back of a coherent answer is its RLEN registers
from RADDR on OK and nothing on an error. -/
theorem writeBackOnlyOnOk : Obligations.WriteBackOnlyOnOk := by
  intro b q
  have hrequest := request_eq_afterRequest q b
  have hr : (b.afterRequest q).block.resp.Coherent := codec_coherent q
  by_cases hok : (b.afterRequest q).block.resp.status = .ok
  · obtain ⟨b'', hcommit, hblock, hwrote⟩ := commit_of_coherent_ok hr hok
    exact ⟨b.afterRequest q, b'', hrequest, rfl, rfl, hcommit, hblock, hwrote.schedule, fun herr => absurd hok herr,
      fun _ => hwrote.reg_take hr.rlen_le⟩
  · exact ⟨b.afterRequest q, b.afterRequest q, hrequest, rfl, rfl, commit_of_not_ok hok, rfl, rfl,
      fun herr => ⟨rfl, wr_of_coherent_error hr herr⟩, fun h => absurd h hok⟩

/-! ### init (R333) -/

/-- The timer-control byte of init: FLD_PUT TD of the value 3 into the old byte 0. -/
theorem exec_fldPut_td_three (b : Bench) : exec (.fldPut .td) (b.driven (.fldPut .td) [0x00, 3]) =
    answered (b.driven (.fldPut .td) [0x00, 3]) ⟨.ok, lanesOf [0x03], 0x0E, 1⟩ := by
  have hbyte : finsert (romF .td) 0x00 (fieldBits (romF .td) 3) = 0x03 := by decide
  exact hbyte ▸ exec_fldPut_of_inRange (f := .td) (s := b.driven (.fldPut .td) [0x00, 3]) rfl

/-- Settles O47: the write to control/status 1 and 2, and then the write-back of the timer-control byte. -/
theorem initWritesThreeRegisters : Obligations.InitWritesThreeRegisters := by
  intro b
  obtain ⟨b₁, hwr, -, hcontrol⟩ := wr_wrote (a := 0x00) (bytes := [0x00, 0x00]) (by decide) b
  obtain ⟨b₂, htimer, -, htimerControl⟩ :=
    issueThenCommit_of_ok (data := [0x03]) (exec_fldPut_td_three b₁) rfl (by decide)
  refine ⟨b₂, ?_, htimerControl.schedule.trans hcontrol.schedule, fun a => ?_⟩
  · simp only [Bench.init, hwr, htimer]
  · rw [htimerControl.reg a, hcontrol.reg a]
    fin_cases a <;> rfl

/-! ### get_datetime (R334) -/

/-- A read that ends before any scheduled event is due leaves the registers, its request is answered from them, and an
event m bytes further off is still m bytes off afterwards. -/
theorem readThenIssue_before_events {i : Instr} {a n m : Nat} {more : List Byte} {b : Bench} (hlen : a + n ≤ 16)
    (hfar : ∀ e ∈ b.schedule, n + m < e.after) : ∃ b', b.readThenIssue i a n more = some b' ∧ b'.reg = b.reg ∧
      b'.block.resp = codec ⟨encode i, lanesOf (b.registers a n ++ more)⟩ ∧ ∀ e ∈ b'.schedule, m < e.after := by
  obtain ⟨sch, hrd, hsch, -⟩ := rd_spec n a b hlen fun e he => (Nat.le_add_right n m).trans_lt (hfar e he)
  refine ⟨Bench.afterRequest ⟨encode i, lanesOf (b.registers a n ++ more)⟩ { b with schedule := sch }, ?_, rfl, rfl,
    hsch m hfar⟩
  simp only [Bench.readThenIssue, hrd]
  exact request_eq_afterRequest _ _

/-- Settles O48: the retry is the branch of get_datetime at seconds 59, and before any event is due both reads find the
same registers, to which the block gives one answer. -/
theorem tornReadIsRetriedOnce : Obligations.TornReadIsRetriedOnce := by
  intro b b₁ hfirst
  have hretry (h59 : b₁.block.resp.status = .ok ∧ b₁.block.resp.out.l0 = 59) :
      b.getDatetime = b₁.readThenIssue .dtUnpack 0x02 7 [] := by
    simp only [Bench.getDatetime, hfirst, if_pos h59]
  have hkeep (h59 : ¬ (b₁.block.resp.status = .ok ∧ b₁.block.resp.out.l0 = 59)) : b.getDatetime = some b₁ := by
    simp only [Bench.getDatetime, hfirst, if_neg h59]
  refine ⟨hretry, hkeep, fun hfar => ?_⟩
  obtain ⟨b', hread, hreg₁, hresp₁, hfar₁⟩ :=
    readThenIssue_before_events (i := .dtUnpack) (a := 0x02) (n := 7) (m := 7) (more := []) (by decide) hfar
  obtain rfl : b' = b₁ := Option.some.inj (hread.symm.trans hfirst)
  by_cases h59 : b'.block.resp.status = .ok ∧ b'.block.resp.out.l0 = 59
  · obtain ⟨b₂, hsecond, hreg₂, hresp₂, -⟩ :=
      readThenIssue_before_events (i := .dtUnpack) (a := 0x02) (n := 7) (m := 0) (more := []) (by decide) hfar₁
    refine ⟨b₂, (hretry h59).trans hsecond, hreg₂.trans hreg₁, ?_⟩
    rw [hresp₂, hresp₁, Bench.registers, Bench.registers, hreg₁]
  · exact ⟨b', hkeep h59, hreg₁, rfl⟩

end Sys2Proof.Machine
